-- ==== Sys2Proof/Word.lean ====
section
/-! DEFINITION. The word types of the engine (00_scope.md R7, R9; 30_encoding.md R53). -/

namespace Sys2Proof

/-- A word: an unsigned integer of W = 32 bits, bit 31 the most significant (00_scope.md R7, R9). -/
abbrev Word := BitVec 32

/-- A command word CW: the 33 bits `cmd_op`, `cmd_seed` of format C (30_encoding.md R52, R53). -/
abbrev CommandWord := BitVec 33

end Sys2Proof
end

