-- ==== Sys2Proof/Config.lean ====
section
/-! DEFINITION. What the spec leaves open, as free values without a body (92_eei_decisions.md, named parameters
left OPEN), and the one parameter of the timing profile. -/

namespace Sys2Proof

/-- RESET_ABCD: word `x` (x[0] = a, x[1] = b, x[2] = c, x[3] = d, 10_state.md R10) of the draw number `draw` that a
reset takes. A free value: 'Four 32-bit words that the model draws afresh at every reset, under no law'
(10_state.md R22). DESIGN CHOICE, log 3. -/
opaque Config.resetAbcd (x : Fin 4) (draw : Nat) : Word

/-- OUT_WHEN_INVALID: what observation number `obs` finds on `out_data` while `ov` = 0, a free value
(30_encoding.md R57; 93_implementation_defined.md U8). DESIGN CHOICE, log 5. -/
opaque Config.outWhenInvalid (obs : Nat) : Word

/-- INIT_BUSY_CYCLES at the reference value of the timing profile (00_scope.md R8; 70_reset_and_hazards.md R157).
No rule of the command level reads it. Log 9. -/
def Config.initBusyCycles : Nat := 20

end Sys2Proof
end

