-- ==== Sys2Proof/Syntax.lean ====
section
/-! DEFINITION. The commands of the engine: one constructor for each row of the opcode table. -/

namespace Sys2Proof

/-- The complete command set (00_scope.md R1; 30_encoding.md R54). No command names a state word (R53). -/
inductive Instr where
  /-- NEXT: no operand (41_next.md R90). -/
  | next
  /-- INIT: one 32-bit seed, every value valid (30_encoding.md R55; 42_init.md R100). -/
  | init (seed : Word)
  deriving DecidableEq, Repr

end Sys2Proof
end

