-- ==== Sys2Proof/Machine/State.lean ====
section
/-! DEFINITION. The state of the engine (10_state.md), its ports (30_encoding.md R50), the reasons a step could stop,
and the state just after reset. -/

namespace Sys2Proof.Machine

/-- GeneratorState: the four state words (10_state.md R10). Every combination of values is legal (R11). -/
structure GeneratorState where
  a : Word
  b : Word
  c : Word
  d : Word
  deriving DecidableEq, Repr

/-- The values of the input ports during the cycle that a rising edge ends (30_encoding.md R50). `clk` is the step. -/
structure PortInputs where
  rst : Bool
  cmdValid : Bool
  cmdOp : BitVec 1
  cmdSeed : Word
  deriving DecidableEq, Repr

/-- The values of the output ports (30_encoding.md R50; 70_reset_and_hazards.md R151). -/
structure PortOutputs where
  cmdReady : Bool
  outValid : Bool
  outData : Word
  seeded : Bool
  busy : Bool
  deriving DecidableEq, Repr

/-- What the host has still to present to the engine, at the level of description of the run (70_reset_and_hazards.md
R139). The spec makes it a parameter of the run; the model holds it in the state (log 1). -/
inductive HostInput where
  /-- The command level: the rest of a command script, one command word for each step (R163). -/
  | script (words : List CommandWord)
  /-- The cycle level: the input values at the coming rising edges; after the last one the host idles (log 2). -/
  | edges (cycles : List PortInputs)
  deriving DecidableEq, Repr

/-- The whole state: Σ = (a, b, c, d, seeded, ov, rc) of 70_reset_and_hazards.md R150, and two fields of the model's
own, `draws` (log 4) and `host` (log 1). -/
structure State where
  /-- The state words a, b, c, d (10_state.md R10). -/
  gen : GeneratorState
  /-- 0 fresh, 1 running (10_state.md R16). -/
  seeded : Bool
  /-- Output valid (10_state.md R17). -/
  ov : Bool
  /-- The discard rounds INIT still has to perform; cycle level only (10_state.md R18). -/
  rc : BitVec 5
  /-- The model's own: the number of the next draw of RESET_ABCD (log 4). -/
  draws : Nat
  /-- The model's own: the host's inputs still to come (log 1). -/
  host : HostInput
  deriving DecidableEq, Repr

/-- No rule raises an exception and no command can fail (60_exceptions.md R120): there is no fault. Safe: the type is
empty, so no step can answer one. -/
inductive Fault where
  deriving DecidableEq, Repr

/-- Why a step would give no meaning. -/
inductive Refusal where
  /-- Kept for the host's arms of `exec`; both instructions have a meaning, so nothing raises it. Safe. -/
  | notModelled (mnemonic : String)
  deriving DecidableEq, Repr

/-- The words that draw number `n` of RESET_ABCD gives (10_state.md R22): free values, log 3. -/
def drawAbcd (n : Nat) : GeneratorState :=
  ⟨Config.resetAbcd 0 n, Config.resetAbcd 1 n, Config.resetAbcd 2 n, Config.resetAbcd 3 n⟩

/-- The launch state of a run for a given draw `abcd` (70_reset_and_hazards.md R163): claims about every draw quantify
over `abcd`. -/
def State.launch (abcd : GeneratorState) (draws : Nat) (host : HostInput) : State :=
  { gen := abcd, seeded := false, ov := false, rc := 0#5, draws := draws, host := host }

/-- The machine right after a reset edge (10_state.md R22; 70_reset_and_hazards.md R140): `seeded` = `ov` = 0, `rc` = 0,
the state words a draw, and no input presented yet (logs 1, 3, 4). -/
def State.reset : State := State.launch (drawAbcd 0) 1 (.script [])

end Sys2Proof.Machine
end

