-- ==== Sys2Proof/WellFormed.lean ====
section
/-! DEFINITION. The checks on data that comes from outside the types: raw command words, rotation amounts, seeds
written in a script. Every instruction is well formed. -/

namespace Sys2Proof

/-- Every command is well formed: no seed is rejected and NEXT has no operand (30_encoding.md R55, R56). -/
def Instr.wellFormed : Instr → Bool
  | .next => true
  | .init _ => true

/-- A number is a command word when it has 33 bits: 'Every command word is 33 bits wide' (20_memory.md R33). -/
def commandWordOk (v : Nat) : Bool := decide (v < 2 ^ 33)

/-- `rotl32`, `shl32` and `shr32` are defined for amounts 1 to 31 only (40_round.md R73, R75). -/
def rotAmountOk (k : Nat) : Bool := decide (1 ≤ k) && decide (k ≤ 31)

/-- A seed of a script is an integer in 0 to 4294967295 (30_encoding.md R60). -/
def imm32Ok (n : Nat) : Bool := decide (n ≤ 4294967295)

/-- A rotation or shift amount the spec defines. The amounts 0 and 32 have no value in this model
(93_implementation_defined.md U1; log 10). -/
abbrev RotAmount := { k : Nat // rotAmountOk k = true }

end Sys2Proof
end

