-- ==== Sys2Proof/Machine/Operands.lean ====
section
/-! DEFINITION. The constants of the hardware (00_scope.md R7) and the operand of INIT: how the seed reaches the
state words (30_encoding.md R55; 42_init.md R101). NEXT has no operand. -/

namespace Sys2Proof.Machine

/-- ROT_B = 27 (00_scope.md R7). UNVERIFIED literal, log 14. -/
def rotB : RotAmount := ⟨27, by decide⟩

/-- ROT_C = 17 (00_scope.md R7). UNVERIFIED literal, log 14. -/
def rotC : RotAmount := ⟨17, by decide⟩

/-- INIT_A = 0xF1EA5EED (00_scope.md R7). UNVERIFIED literal, log 14. -/
def initA : Word := 0xF1EA5EED#32

/-- INIT_ROUNDS = 20 (00_scope.md R7). UNVERIFIED literal, log 14. -/
def initRounds : Nat := 20

/-- What LOAD puts into the state words: a <- 0xF1EA5EED, b, c, d <- seed (42_init.md R101). -/
def loadState (seed : Word) : GeneratorState := ⟨initA, seed, seed, seed⟩

end Sys2Proof.Machine
end

