-- ==== Sys2Proof/Machine/Arith.lean ====
section
/-! DEFINITION. The arithmetic primitives and the round function (40_round.md). -/

namespace Sys2Proof.Machine

/-- add32: the sum modulo 2^32, the carry out discarded (40_round.md R70). -/
def add32 (x y : Word) : Word := x + y

/-- sub32: the difference modulo 2^32, the borrow discarded (40_round.md R71). -/
def sub32 (x y : Word) : Word := x - y

/-- xor32: bitwise exclusive or (40_round.md R72). -/
def xor32 (x y : Word) : Word := x ^^^ y

/-- shl32: logical left shift within 32 bits, zeros shifted in (40_round.md R73). -/
def shl32 (x : Word) (k : RotAmount) : Word := x <<< k.val

/-- shr32: logical right shift, zeros shifted in (40_round.md R73). -/
def shr32 (x : Word) (k : RotAmount) : Word := x >>> k.val

/-- 32 - k, an amount again when k is one. -/
def coAmount (k : RotAmount) : RotAmount :=
  ⟨32 - k.val, by have := k.property; simp only [rotAmountOk, Bool.and_eq_true, decide_eq_true_eq] at this ⊢; omega⟩

/-- rotl32: (x << k) | (x >> (32 - k)), for amounts 1 to 31 (40_round.md R74, R75). -/
def rotl32 (x : Word) (k : RotAmount) : Word := shl32 x k ||| shr32 x (coAmount k)

/-- rotr32(x, k) = rotl32(x, 32 - k) (40_round.md R77). -/
def rotr32 (x : Word) (k : RotAmount) : Word := rotl32 x (coAmount k)

/-- ROUND_E: the intermediate word e = a - rotl32(b, 27), a wire (40_round.md R76; 10_state.md R23). -/
def roundE (a b : Word) : Word := sub32 a (rotl32 b rotB)

/-- ROUND: the right-hand sides use the words before the round, and d' uses the already updated a' (40_round.md R76). -/
def genRound (g : GeneratorState) : GeneratorState :=
  let e := roundE g.a g.b
  let a' := xor32 g.b (rotl32 g.c rotC)
  { a := a', b := add32 g.c g.d, c := add32 g.d e, d := add32 e a' }

/-- The inverse of ROUND (40_round.md R80). -/
def invRound (g : GeneratorState) : GeneratorState :=
  let e := sub32 g.d g.a
  let d := sub32 g.c e
  let c := sub32 g.b d
  let b := xor32 g.a (rotl32 c rotC)
  { a := add32 e (rotl32 b rotB), b := b, c := c, d := d }

/-- ROUND^n: ROUND applied n times (00_scope.md R9). -/
def roundN (n : Nat) (g : GeneratorState) : GeneratorState := genRound^[n] g

/-- The state words INIT leaves: ROUND^20(0xF1EA5EED, seed, seed, seed) (42_init.md R100). -/
def seededState (seed : Word) : GeneratorState := roundN initRounds (loadState seed)

end Sys2Proof.Machine
end

