-- ==== Sys2Proof/Machine/Flags.lean ====
section
/-! DEFINITION. The status flags and the status outputs (10_state.md R16 to R19, R25). There are no arithmetic
flags (R21): no operation of Machine/Arith.lean writes one. -/

namespace Sys2Proof.Machine

/-- The two logical states (10_state.md R16, R25). They restrict nothing (60_exceptions.md R128). -/
inductive LogicalState where
  | fresh
  | running
  deriving DecidableEq, Repr

/-- `seeded` = 0 is fresh, `seeded` = 1 is running (10_state.md R16). -/
def logicalState (s : State) : LogicalState := if s.seeded then .running else .fresh

/-- `busy` = (`rc` != 0) (10_state.md R19). -/
def busy (s : State) : Bool := s.rc != 0#5

/-- `cmd_ready` = (`rc` = 0) and not `rst` (10_state.md R19). -/
def cmdReady (rst : Bool) (s : State) : Bool := !busy s && !rst

/-- The word on offer: d while `ov` = 1, and no word while `ov` = 0 (10_state.md R17; 30_encoding.md R57). -/
def offered (s : State) : Option Word := if s.ov then some s.gen.d else none

/-- `out_data` as observation number `obs` finds it: d while `ov` = 1, else a free value (70_reset_and_hazards.md R151;
log 5). -/
def outData (obs : Nat) (s : State) : Word := if s.ov then s.gen.d else Config.outWhenInvalid obs

/-- All output ports, as functions of the state and of `rst` (70_reset_and_hazards.md R151). Sampling them changes
nothing (20_memory.md R34). -/
def outputs (rst : Bool) (obs : Nat) (s : State) : PortOutputs :=
  { cmdReady := cmdReady rst s, outValid := s.ov, outData := outData obs s, seeded := s.seeded, busy := busy s }

end Sys2Proof.Machine
end

