-- ==== Sys2Proof/Machine/Ops.lean ====
section
/-! DEFINITION. The named operations on the state that commands, clock edges and reset are made of. The engine takes
no exception and returns from none (60_exceptions.md R120, R125), so there is no operation for either. -/

namespace Sys2Proof.Machine

/-- Replace what the host has still to present. -/
def State.withHost (h : HostInput) (s : State) : State := { s with host := h }

/-- One round whose word is delivered: the state words advance and `ov` <- 1 (41_next.md R90; R153 case STEP). -/
def State.advance (s : State) : State := { s with gen := genRound s.gen, ov := true }

/-- INIT at the command level, in one step: the twenty-times mixed load state, `seeded` <- 1, `ov` <- 0
(42_init.md R100). `rc` is 0 before and after and is not written (10_state.md R18). -/
def State.seedWith (seed : Word) (s : State) : State :=
  { s with gen := seededState seed, seeded := true, ov := false }

/-- LOAD, the first micro-step of INIT: the load state, `rc` <- 20, `seeded` <- 0, `ov` <- 0
(70_reset_and_hazards.md R153 case LOAD, R154). -/
def State.load (seed : Word) (s : State) : State :=
  { s with gen := loadState seed, rc := BitVec.ofNat 5 initRounds, seeded := false, ov := false }

/-- MIX, a discard round: ROUND, `rc` <- `rc` - 1, and `seeded` <- 1 at the twentieth; `ov` is not written
(70_reset_and_hazards.md R153 case MIX, R155). -/
def State.mix (s : State) : State :=
  { s with gen := genRound s.gen, rc := s.rc - 1#5, seeded := if s.rc = 1#5 then true else s.seeded }

/-- RESET: a fresh draw of RESET_ABCD, `seeded` <- 0, `ov` <- 0, `rc` <- 0, whatever the state was
(70_reset_and_hazards.md R140, R141). -/
def State.resetEdge (s : State) : State :=
  { s with gen := drawAbcd s.draws, seeded := false, ov := false, rc := 0#5, draws := s.draws + 1 }

end Sys2Proof.Machine
end

