-- ==== Sys2Proof/Machine/Init.lean ====
section
/-! DEFINITION. The meaning of INIT (42_init.md). -/

namespace Sys2Proof.Machine

/-- INIT: ROUND^20 of the load state, `seeded` <- 1, `ov` <- 0, for any seed and any prior state
(42_init.md R100, R103). -/
def execInit (seed : Word) (s : State) : Host.Outcome State Fault Refusal := .next (s.seedWith seed)

end Sys2Proof.Machine
end

