-- ==== Sys2Proof/Machine/Next.lean ====
section
/-! DEFINITION. The meaning of NEXT (41_next.md). -/

namespace Sys2Proof.Machine

/-- NEXT: one round, `ov` <- 1, `seeded` not written, in any state (41_next.md R90, R93). -/
def execNext (s : State) : Host.Outcome State Fault Refusal := .next s.advance

end Sys2Proof.Machine
end

