-- ==== Sys2Proof/Machine/Dispatch.lean ====
section
/-! DEFINITION. One arm per constructor of Instr. -/

namespace Sys2Proof.Machine

def exec (i : Instr) (s : State) : Host.Outcome State Fault Refusal :=
  match i with
  | .next => Sys2Proof.Machine.execNext s
  | .init seed => Sys2Proof.Machine.execInit seed s

end Sys2Proof.Machine
end

