-- ==== Sys2Proof/Decode.lean ====
section
/-! DEFINITION. The decoder and the encoder of format C (30_encoding.md R52 to R56). -/

namespace Sys2Proof

/-- The opcode of NEXT (30_encoding.md R54; 92_eei_decisions.md D6). -/
def opNext : BitVec 1 := 0#1

/-- The opcode of INIT (30_encoding.md R54; 92_eei_decisions.md D6). -/
def opInit : BitVec 1 := 1#1

/-- CW[32], the opcode (30_encoding.md R53). -/
def opField (cw : CommandWord) : BitVec 1 := cw.extractLsb' 32 1

/-- CW[31:0], the seed of INIT, taken as it stands (30_encoding.md R55). -/
def seedField (cw : CommandWord) : Word := cw.extractLsb' 0 32

/-- CW as the concatenation of `cmd_op` and `cmd_seed`, `cmd_op` the more significant (30_encoding.md R53). -/
def packCommand (op : BitVec 1) (seed : Word) : CommandWord := op ++ seed

/-- The decoder, total on 33-bit words; NEXT ignores CW[31:0] (30_encoding.md R54, R56). -/
def decode (cw : CommandWord) : Instr :=
  if opField cw = opInit then .init (seedField cw) else .next

/-- The encoder. NEXT is written with its ignored field zero (30_encoding.md R60). -/
def encode : Instr → CommandWord
  | .next => packCommand opNext 0#32
  | .init seed => packCommand opInit seed

/-- A row of the opcode map: a word w encodes the row's command when (w and mask) = match (30_encoding.md R54). -/
structure OpcodeRow where
  mnemonic : String
  matchBits : CommandWord
  mask : CommandWord
  deriving DecidableEq, Repr

/-- The row NEXT of the opcode map (30_encoding.md R54). -/
def rowNext : OpcodeRow := ⟨"NEXT", 0x000000000#33, 0x100000000#33⟩

/-- The row INIT of the opcode map (30_encoding.md R54). -/
def rowInit : OpcodeRow := ⟨"INIT", 0x100000000#33, 0x100000000#33⟩

/-- The match test of the opcode map (30_encoding.md R54). -/
def matchesRow (r : OpcodeRow) (cw : CommandWord) : Bool := cw &&& r.mask == r.matchBits

/-- The row an instruction belongs to. -/
def rowOf : Instr → OpcodeRow
  | .next => rowNext
  | .init _ => rowInit

/-- Why a number is no command: there is one reason, since every 33-bit word is a command (30_encoding.md R56). -/
inductive DecodeRefusal where
  /-- The number needs more than 33 bits; no handshake transfers such a word (20_memory.md R33). Safe: it is refused. -/
  | notACommandWord
  deriving DecidableEq, Repr

/-- The command word a number stands for, if it has 33 bits. -/
def commandWord? (v : Nat) : Option CommandWord :=
  if commandWordOk v then some (BitVec.ofNat 33 v) else none

/-- The decoder on any number, rejecting by name. -/
def decodeRaw (v : Nat) : Except DecodeRefusal Instr :=
  match commandWord? v with
  | some cw => .ok (decode cw)
  | none => .error .notACommandWord

/-- The host's entry to the decoder: `w` is numbered as the opcode table numbers bits (CW[i] is bit i), `nbits` is the
row's width in whole bytes, and bits from `nbits` on are zero. A word with a bit above CW[32] is refused (log 11). -/
def decodeTableWord (nbits w : Nat) : Option Instr :=
  (decodeRaw (w % 2 ^ nbits)).toOption

end Sys2Proof
end

