-- ==== Sys2Proof/Machine/Ports.lean ====
section
/-! DEFINITION. The cycle level: the command port, the handshake and one rising clock edge
(70_reset_and_hazards.md R150 to R156). -/

namespace Sys2Proof.Machine

/-- The ports of a host that idles: no reset, no command (70_reset_and_hazards.md R162). `cmd_op` and `cmd_seed` are then
not sampled (93_implementation_defined.md U10). -/
def idlePorts : PortInputs := { rst := false, cmdValid := false, cmdOp := 0#1, cmdSeed := 0#32 }

/-- The ports of a host that presents the command word `cw` (30_encoding.md R50, R53). -/
def presentPorts (cw : CommandWord) : PortInputs :=
  { rst := false, cmdValid := true, cmdOp := opField cw, cmdSeed := seedField cw }

/-- `accept` = (`cmd_valid` = 1) and (`cmd_ready` = 1) (70_reset_and_hazards.md R152). -/
def accept (p : PortInputs) (s : State) : Bool := p.cmdValid && cmdReady p.rst s

/-- The command an edge transfers, if it transfers one: the one encoded by `cmd_op` and `cmd_seed` at that edge
(70_reset_and_hazards.md R152). -/
def transferred (p : PortInputs) (s : State) : Option Instr :=
  if accept p s then some (decode (packCommand p.cmdOp p.cmdSeed)) else none

/-- The five cases of a rising edge (70_reset_and_hazards.md R153). -/
inductive EdgeCase where
  | reset
  | mix
  | load (seed : Word)
  | step
  | hold
  deriving DecidableEq, Repr

/-- Which case an edge takes, tested in the order of 60_exceptions.md R124: reset, then a discard round in progress,
then an accepted command, else nothing (70_reset_and_hazards.md R153). -/
def edgeCase (p : PortInputs) (s : State) : EdgeCase :=
  if p.rst then .reset
  else if busy s then .mix
  else match transferred p s with
    | some (.init seed) => .load seed
    | some .next => .step
    | none => .hold

/-- What each case writes (70_reset_and_hazards.md R153). -/
def performCase : EdgeCase → State → State
  | .reset, s => s.resetEdge
  | .mix, s => s.mix
  | .load seed, s => s.load seed
  | .step, s => s.advance
  | .hold, s => s

/-- The state after a rising edge with the inputs `p` (70_reset_and_hazards.md R150, R153). -/
def clockEdge (p : PortInputs) (s : State) : State := performCase (edgeCase p s) s

end Sys2Proof.Machine
end

