-- ==== Sys2Proof/Machine/Fetch.lean ====
section
/-! DEFINITION. How the next move reaches the engine: from the rest of a command script, or from the input values of
the next clock edge. There is no program counter and no fetch from memory (10_state.md R20). -/

namespace Sys2Proof.Machine

/-- What one step of the engine performs (70_reset_and_hazards.md R139). -/
inductive Move where
  /-- A whole command, at the command level. -/
  | command (i : Instr)
  /-- One rising clock edge, at the cycle level. -/
  | edge (p : PortInputs)
  deriving DecidableEq, Repr

/-- The next move and the state with that input taken from the host's list. A command of a script is presented until
it is accepted: while `rc` != 0 it waits and the engine mixes (70_reset_and_hazards.md R148; log 6). With nothing left
to present the host idles (R156; log 2). -/
def fetch (s : State) : Move × State :=
  match s.host with
  | .edges [] => (.edge idlePorts, s)
  | .edges (p :: ps) => (.edge p, s.withHost (.edges ps))
  | .script [] => (.edge idlePorts, s)
  | .script (w :: ws) =>
    if busy s then (.edge idlePorts, s) else (.command (decode w), s.withHost (.script ws))

/-- The commands of a script still to come; none when the run is at the cycle level. -/
def HostInput.commands : HostInput → List CommandWord
  | .script ws => ws
  | .edges _ => []

/-- The host presents the command word `cw` next, ahead of what a script still holds, to an idle engine
(10_state.md R20; log 13). -/
def present (cw : CommandWord) (s : State) : State :=
  { s with rc := 0#5, host := .script (cw :: s.host.commands) }

/-- `present` on a number numbered as the opcode table numbers bits; a number that is no command word is not presented
(log 11). -/
def presentTableWord (nbits w : Nat) (s : State) : State :=
  match commandWord? (w % 2 ^ nbits) with
  | some cw => present cw s
  | none => s

end Sys2Proof.Machine
end

