-- ==== Sys2Proof/Machine/Step.lean ====
section
/-! DEFINITION. One step of the machine, and where its next command stands. -/

namespace Sys2Proof.Machine

/-- One step: a command performed whole, or one clock edge (70_reset_and_hazards.md R139; 00_scope.md R6). -/
def step (s : State) : Host.Outcome State Fault Refusal :=
  match fetch s with
  | (.command i, s') => exec i s'
  | (.edge p, s') => .next (clockEdge p s')

/-- The state in which the very next step performs the command word `w` (logs 1, 11, 13). -/
def State.withFetchWord (s : State) (nbits w : Nat) : State := presentTableWord nbits w s

end Sys2Proof.Machine
end

