-- ==== Sys2Proof/Machine/Script.lean ====
section
/-! DEFINITION. The script syntax: reading a script, and the listing form (30_encoding.md R60 to R62). Text is a list
of characters. What the spec leaves open about spacing and spelling is log 12. -/

namespace Sys2Proof.Machine

/-- A blank of a script line (log 12). -/
def isBlank (c : Char) : Bool := c == ' ' || c == '\t' || c == '\r'

/-- The pieces of a text between the characters `sep` picks, in order, empty pieces included. -/
def splitAtChars (sep : Char → Bool) : List Char → List (List Char)
  | [] => [[]]
  | c :: cs =>
    if sep c then [] :: splitAtChars sep cs
    else match splitAtChars sep cs with
      | [] => [[c]]
      | l :: ls => (c :: l) :: ls

/-- The lines of a script: one command a line (30_encoding.md R60). -/
def scriptLines (text : List Char) : List (List Char) := splitAtChars (fun c => c == '\n') text

/-- A line without its comment: a semicolon starts one that runs to the end of the line (30_encoding.md R60). -/
def dropComment (line : List Char) : List Char := line.takeWhile (fun c => c != ';')

/-- The words of a line, which blanks separate. -/
def lineTokens (line : List Char) : List (List Char) := (splitAtChars isBlank line).filter (fun t => !t.isEmpty)

/-- A letter in lower case: mnemonics are case-insensitive (30_encoding.md R60). -/
def lowerChar (c : Char) : Char :=
  if 65 ≤ c.toNat && c.toNat ≤ 90 then Char.ofNat (c.toNat + 32) else c

/-- The value of a decimal digit. -/
def decDigit? (c : Char) : Option Nat :=
  if 48 ≤ c.toNat && c.toNat ≤ 57 then some (c.toNat - 48) else none

/-- The value of a hexadecimal digit, in either case. -/
def hexDigit? (c : Char) : Option Nat :=
  if 48 ≤ c.toNat && c.toNat ≤ 57 then some (c.toNat - 48)
  else if 97 ≤ c.toNat && c.toNat ≤ 102 then some (c.toNat - 87)
  else if 65 ≤ c.toNat && c.toNat ≤ 70 then some (c.toNat - 55)
  else none

/-- Digits read after the number `acc`, the most significant first. -/
def readDigitsFrom (digit? : Char → Option Nat) (base : Nat) : Nat → List Char → Option Nat
  | acc, [] => some acc
  | acc, c :: cs =>
    match digit? c with
    | some v => readDigitsFrom digit? base (acc * base + v) cs
    | none => none

/-- A number of at least one digit. -/
def readNumber (digit? : Char → Option Nat) (base : Nat) (cs : List Char) : Option Nat :=
  if cs.isEmpty then none else readDigitsFrom digit? base 0 cs

/-- `<imm32>`: decimal, or `0x` and one to eight hexadecimal digits; outside 0 to 4294967295 it is a syntax error
(30_encoding.md R60). -/
def readImm32 (cs : List Char) : Option Word :=
  let n? := match cs with
    | '0' :: 'x' :: hs => if hs.length ≤ 8 then readNumber hexDigit? 16 hs else none
    | _ => readNumber decDigit? 10 cs
  match n? with
  | some n => if imm32Ok n then some (BitVec.ofNat 32 n) else none
  | none => none

/-- The mnemonic `next` (30_encoding.md R60). -/
def nextText : List Char := ['n', 'e', 'x', 't']

/-- The mnemonic `init` (30_encoding.md R60). -/
def initText : List Char := ['i', 'n', 'i', 't']

/-- The commands of one line: none for a blank line, `next`, `next xN` for N of them, or `init <imm32>`
(30_encoding.md R60, R61). R61 calls N 'an integer N >= 0' and does not say how it is written. DESIGN CHOICE, log 12: N is
written in decimal digits right after the x, and any other spelling, such as `next x0x3`, is a syntax error. -/
def readLine (line : List Char) : Option (List Instr) :=
  match lineTokens (dropComment line) with
  | [] => some []
  | [m] => if m.map lowerChar = nextText then some [.next] else none
  | [m, operand] =>
    if m.map lowerChar = initText then (readImm32 operand).map (fun seed => [.init seed])
    else if m.map lowerChar = nextText then
      match operand with
      | 'x' :: ds => (readNumber decDigit? 10 ds).map (fun n => List.replicate n .next)
      | _ => none
    else none
  | _ => none

/-- The commands of some lines, in order; none when a line has a syntax error. -/
def readLines : List (List Char) → Option (List Instr)
  | [] => some []
  | l :: ls =>
    match readLine l, readLines ls with
    | some is, some rest => some (is ++ rest)
    | _, _ => none

/-- The commands of a script, performed top to bottom (30_encoding.md R60). -/
def readScript (text : List Char) : Option (List Instr) := readLines (scriptLines text)

/-- The command words of a script (30_encoding.md R60). -/
def assembleScript (text : List Char) : Option (List CommandWord) := (readScript text).map (·.map encode)

/-- A hexadecimal digit, letters in upper case. -/
def hexChar (n : Nat) : Char := if n < 10 then Char.ofNat (48 + n) else Char.ofNat (55 + n)

/-- `n` written with `k` hexadecimal digits, the most significant first. -/
def hexDigits : Nat → Nat → List Char
  | 0, _ => []
  | k + 1, n => hexChar (n / 16 ^ k % 16) :: hexDigits k n

/-- `0x` and eight hexadecimal digits. -/
def writeImm32 (w : Word) : List Char := '0' :: 'x' :: hexDigits 8 w.toNat

/-- The script line of a command (30_encoding.md R60, R62). -/
def writeLine : Instr → List Char
  | .next => nextText
  | .init seed => initText ++ ' ' :: writeImm32 seed

/-- A script of one command a line, each line ended (30_encoding.md R60). -/
def writeScript (is : List Instr) : List Char := is.flatMap (fun i => writeLine i ++ ['\n'])

/-- A command word with nine hexadecimal digits, an underscore after the first (30_encoding.md R53, R60). -/
def writeCommandWord (cw : CommandWord) : List Char :=
  '0' :: 'x' :: hexDigits 1 (cw.toNat / 2 ^ 32) ++ '_' :: hexDigits 8 cw.toNat

/-- One line of a listing: the index of the command, its command word and its script line (30_encoding.md R62). -/
def listingLine (index : Nat) (i : Instr) : List Char :=
  Nat.toDigits 10 index ++ [' ', ' '] ++ writeCommandWord (encode i) ++ [' ', ' '] ++ writeLine i

/-- The lines of a listing whose first index is `from`. -/
def listingFrom : Nat → List Instr → List (List Char)
  | _, [] => []
  | n, i :: is => listingLine n i :: listingFrom (n + 1) is

/-- The listing of a script, indices from 0 (30_encoding.md R62). -/
def listing (is : List Instr) : List (List Char) := listingFrom 0 is

end Sys2Proof.Machine
end

