-- ==== Sys2Proof/Machine/Run.lean ====
section
/-! DEFINITION. Runs and their observation, at both levels of description (70_reset_and_hazards.md R160, R163). -/

namespace Sys2Proof.Machine

/-- A command script performed in order from `s`: the words its NEXT commands returned, in order, and the end state
(20_memory.md R36; 70_reset_and_hazards.md R163). -/
def runScript : List Instr → State → Host.Outcome (List Word × State) Fault Refusal
  | [], s => .next ([], s)
  | i :: is, s =>
    match exec i s with
    | .next s' =>
      match runScript is s' with
      | .next (ws, t) => .next ((offered s').toList ++ ws, t)
      | .fault r => .fault r
      | .refused r => .refused r
    | .fault r => .fault r
    | .refused r => .refused r

/-- The state after a sequence of rising edges (70_reset_and_hazards.md R150). -/
def runEdges : List PortInputs → State → State
  | [], s => s
  | p :: ps, s => runEdges ps (clockEdge p s)

/-- The commands accepted during a sequence of edges, in order of their accepting edges (70_reset_and_hazards.md
R152, R160). A list over all the edges: it is the script of one run only where no edge of `ps` is a reset (R160, R163;
log 16). -/
def acceptedCommands : List PortInputs → State → List Instr
  | [], _ => []
  | p :: ps, s => (transferred p s).toList ++ acceptedCommands ps (clockEdge p s)

/-- The words seen on `out_data` just after each STEP edge (70_reset_and_hazards.md R160). A list over all the edges: it
is the words of one run only where no edge of `ps` is a reset (R160, R163; log 16). -/
def edgeWords : List PortInputs → State → List Word
  | [], _ => []
  | p :: ps, s =>
    (if edgeCase p s = .step then (offered (clockEdge p s)).toList else []) ++ edgeWords ps (clockEdge p s)

/-- The observation of a run: the words returned, and the final (a, b, c, d, seeded, ov)
(70_reset_and_hazards.md R163). -/
structure Observation where
  words : List Word
  gen : GeneratorState
  seeded : Bool
  ov : Bool
  deriving DecidableEq, Repr

/-- The observation made of the words of a run and its end state. -/
def observation (words : List Word) (t : State) : Observation := ⟨words, t.gen, t.seeded, t.ov⟩

/-- The observation of a script at the command level, if the run ends (70_reset_and_hazards.md R163). -/
def observeScript (is : List Instr) (s : State) : Option Observation :=
  match runScript is s with
  | .next (ws, t) => some (observation ws t)
  | _ => none

/-- The observation of a run at the cycle level from its launch state `s`, which is over when `rc` = 0
(70_reset_and_hazards.md R163). The edges `ps` come after the reset edge of the launch, so an edge with `rst` = 1 among
them is a second reset: R163 calls that two runs and says nothing of the whole. DESIGN CHOICE, log 16: such a list has no
observation, and words from before and after a reset are never joined into one. -/
def observeEdges (ps : List PortInputs) (s : State) : Option Observation :=
  if ps.any (fun p => p.rst) || busy (runEdges ps s) then none
  else some (observation (edgeWords ps s) (runEdges ps s))

end Sys2Proof.Machine
end

