-- ==== Sys2Proof/Safety.lean ====
section
/-! DEFINITION. What counts as a safe run, in the terms the statements use. -/

namespace Sys2Proof.Machine

/-- The step goes on: no fault and no refusal (60_exceptions.md R120; 70_reset_and_hazards.md R161). -/
def GoesOn (s : State) : Prop := ∃ t, step s = .next t

/-- `rst` stays 0 over a sequence of edges (the premise of 70_reset_and_hazards.md R157, R160, R161). -/
def RstLow (ps : List PortInputs) : Prop := ∀ p ∈ ps, p.rst = false

/-- The state words are the product of a completed INIT followed only by NEXT commands (10_state.md R16). -/
def IsSeededStream (g : GeneratorState) : Prop := ∃ seed n, g = roundN n (seededState seed)

/-- The state words are what an INIT in progress has reached when `rc` rounds are still to come
(70_reset_and_hazards.md R157). -/
def IsMixing (rc : Nat) (g : GeneratorState) : Prop := ∃ seed, g = roundN (initRounds - rc) (loadState seed)

/-- The invariant of the engine: `rc` is 0 to 20 (10_state.md R18); while it is not 0 an INIT is in progress, with
`seeded` = 0 and `ov` = 0 (70_reset_and_hazards.md R157); and `seeded` = 1 means that the words are the product of a
completed INIT followed only by NEXT commands (10_state.md R16). -/
def EngineInv (s : State) : Prop :=
  s.rc.toNat ≤ initRounds ∧
  (s.rc ≠ 0#5 → s.seeded = false ∧ s.ov = false ∧ IsMixing s.rc.toNat s.gen) ∧
  (s.seeded = true → IsSeededStream s.gen)

end Sys2Proof.Machine
end

