-- ==== Sys2Proof/Certificates/Slice0/Obligations.lean ====
section
/-! DEFINITION. The statements for the provers, from the numbered rules of spec/. -/

open Sys2Proof Sys2Proof.Machine

/-! ### Encoding (30_encoding.md) -/

/-- R52 to R56: every instruction is well formed, and decoding what encoding gives answers it again, with every seed;
also through the host's entry to the decoder. -/
def Obligations.DecodeEncodeAgree : Prop :=
  ∀ i : Instr, i.wellFormed = true ∧ decode (encode i) = i ∧ decodeTableWord 40 (encode i).toNat = some i

/-- R53, R60: encoding what decoding gives answers the word again; for NEXT, the word with its ignored field zero. -/
def Obligations.EncodeDecodeAgree : Prop :=
  ∀ cw : CommandWord,
    (cw.getLsbD 32 = true → encode (decode cw) = cw) ∧ (cw.getLsbD 32 = false → encode (decode cw) = 0#33)

/-- R54: the two rows of the opcode map partition all 33-bit words, and the decoder follows the row that matches; the
seed of INIT is the word modulo 2^32. -/
def Obligations.EveryWordIsExactlyOneCommand : Prop :=
  ∀ cw : CommandWord,
    (matchesRow rowNext cw = true ↔ cw &&& 0x100000000#33 = 0x000000000#33) ∧
    (matchesRow rowInit cw = true ↔ cw &&& 0x100000000#33 = 0x100000000#33) ∧
    matchesRow rowNext cw = !matchesRow rowInit cw ∧
    (matchesRow rowNext cw = true → cw.getLsbD 32 = false ∧ decode cw = .next) ∧
    (matchesRow rowInit cw = true → cw.getLsbD 32 = true ∧ decode cw = .init (BitVec.ofNat 32 cw.toNat))

/-- R56: whatever stands in CW[31:0], a word with CW[32] = 0 is NEXT and does the same at both levels; a word with
CW[32] = 1 is INIT with seed CW[31:0]; no word is refused. -/
def Obligations.NextIgnoresItsField : Prop :=
  (∀ seed : Word, decode (packCommand 0#1 seed) = .next ∧ decode (packCommand 1#1 seed) = .init seed) ∧
  (∀ (seed seed' : Word) (s : State),
    step (present (packCommand 0#1 seed) s) = step (present (packCommand 0#1 seed') s)) ∧
  (∀ (p : PortInputs) (seed : Word) (s : State), p.cmdOp = 0#1 →
    clockEdge { p with cmdSeed := seed } s = clockEdge p s) ∧
  (∀ (cw : CommandWord) (s : State), ∃ t, step (present cw s) = .next t)

/-- The words of 95_test_vectors.md V-D1 to V-D8 decode as they stand there. -/
def Obligations.VectorWordsDecode : Prop :=
  decode 0x000000000#33 = .next ∧ decode 0x0DEADBEEF#33 = .next ∧ decode 0x0FFFFFFFF#33 = .next ∧
  decode 0x000000001#33 = .next ∧ decode 0x100000000#33 = .init 0x00000000#32 ∧
  decode 0x1FFFFFFFF#33 = .init 0xFFFFFFFF#32 ∧ decode 0x1F1EA5EED#33 = .init 0xF1EA5EED#32 ∧
  decode 0x180000000#33 = .init 0x80000000#32

/-- The model's choice, log 11: the host's entry to the decoder answers exactly the numbers of 33 bits. -/
def Obligations.TableWordsAreThirtyThreeBits : Prop :=
  ∀ nbits w : Nat, (decodeTableWord nbits w).isSome = true ↔ w % 2 ^ nbits < 2 ^ 33

/-! ### Arithmetic primitives (40_round.md) -/

/-- R70: add32 is the sum modulo 2^32, the low 32 bits of the 33-bit sum; commutative, associative; its corner cases. -/
def Obligations.AddWrapsModulo : Prop :=
  (∀ x y : Word, (add32 x y).toNat = (x.toNat + y.toNat) % 2 ^ 32 ∧
    add32 x y = (x.setWidth 33 + y.setWidth 33).extractLsb' 0 32 ∧ add32 x y = add32 y x ∧ add32 x 0#32 = x) ∧
  (∀ x y z : Word, add32 (add32 x y) z = add32 x (add32 y z)) ∧
  add32 0xFFFFFFFF#32 1#32 = 0#32 ∧ add32 0xFFFFFFFF#32 0xFFFFFFFF#32 = 0xFFFFFFFE#32 ∧
  add32 0x80000000#32 0x80000000#32 = 0#32 ∧ add32 0xF1EA5EED#32 0xF1EA5EED#32 = 0xE3D4BDDA#32

/-- R71: sub32(x, y) is the unique r with add32(r, y) = x, and the two's complement form; its corner cases. -/
def Obligations.SubUndoesAdd : Prop :=
  (∀ x y r : Word, add32 r y = x ↔ r = sub32 x y) ∧
  (∀ x y : Word, (sub32 x y).toNat = (2 ^ 32 + x.toNat - y.toNat) % 2 ^ 32 ∧
    sub32 x y = add32 x (add32 (xor32 y 0xFFFFFFFF#32) 1#32) ∧ sub32 x 0#32 = x ∧ sub32 x x = 0#32) ∧
  sub32 0#32 1#32 = 0xFFFFFFFF#32 ∧ sub32 0#32 0x80000000#32 = 0x80000000#32 ∧
  sub32 0#32 0xFFFFFFFF#32 = 1#32 ∧ sub32 0#32 0x08000000#32 = 0xF8000000#32

/-- R72: xor32 bit by bit; its corner cases. -/
def Obligations.XorIsBitwise : Prop :=
  (∀ (x y : Word) (i : Nat), i < 32 → (xor32 x y).getLsbD i = (x.getLsbD i ^^ y.getLsbD i)) ∧
  (∀ x : Word, xor32 x 0#32 = x ∧ xor32 x x = 0#32) ∧ xor32 0x00000002#32 0x00060000#32 = 0x00060002#32

/-- R73: the logical shifts for amounts 1 to 31, as numbers and bit by bit. -/
def Obligations.ShiftsAreLogical : Prop :=
  ∀ (x : Word) (k : RotAmount),
    1 ≤ k.val ∧ k.val ≤ 31 ∧
    (shl32 x k).toNat = x.toNat * 2 ^ k.val % 2 ^ 32 ∧ (shr32 x k).toNat = x.toNat / 2 ^ k.val ∧
    ∀ i, i < 32 →
      (shl32 x k).getLsbD i = (if k.val ≤ i then x.getLsbD (i - k.val) else false) ∧
      (shr32 x k).getLsbD i = (if i ≤ 31 - k.val then x.getLsbD (i + k.val) else false)

/-- R74: rotl32 moves bit j to bit (j + k) mod 32, loses none, and its two terms share no bit. -/
def Obligations.RotateLeftMovesEveryBit : Prop :=
  (∀ (x : Word) (k : RotAmount),
    rotl32 x k = shl32 x k ||| shr32 x (coAmount k) ∧
    shl32 x k &&& shr32 x (coAmount k) = 0#32 ∧
    rotl32 x k = add32 (shl32 x k) (shr32 x (coAmount k)) ∧
    rotl32 x k = xor32 (shl32 x k) (shr32 x (coAmount k)) ∧
    (∀ i, i < 32 → (rotl32 x k).getLsbD i = x.getLsbD ((i + 32 - k.val) % 32)) ∧
    (∀ j, j < 32 → (rotl32 x k).getLsbD ((j + k.val) % 32) = x.getLsbD j) ∧
    (List.range 32).countP (fun i => (rotl32 x k).getLsbD i) = (List.range 32).countP (fun i => x.getLsbD i)) ∧
  (∀ k : RotAmount, Function.Bijective (fun x => rotl32 x k) ∧ rotl32 0#32 k = 0#32 ∧
    rotl32 0xFFFFFFFF#32 k = 0xFFFFFFFF#32) ∧
  rotB.val = 27 ∧ rotC.val = 17 ∧
  rotl32 0x00000001#32 rotB = 0x08000000#32 ∧ rotl32 0x00000020#32 rotB = 0x00000001#32 ∧
  rotl32 0x12345678#32 rotB = 0xC091A2B3#32 ∧ rotl32 0x00000001#32 rotC = 0x00020000#32 ∧
  rotl32 0x00008000#32 rotC = 0x00000001#32 ∧ rotl32 0xF1EA5EED#32 rotC = 0xBDDBE3D4#32

/-- R77: the two rotations as right rotations and as wirings. -/
def Obligations.RotationsAreWirings : Prop :=
  (∀ (x : Word) (k : RotAmount), rotr32 x k = rotl32 x (coAmount k)) ∧
  ∀ x : Word,
    rotl32 x rotB = rotr32 x (coAmount rotB) ∧ (coAmount rotB).val = 5 ∧
    rotl32 x rotB = (x.extractLsb' 0 5 ++ x.extractLsb' 5 27 : BitVec (5 + 27)) ∧
    rotl32 x rotC = rotr32 x (coAmount rotC) ∧ (coAmount rotC).val = 15 ∧
    rotl32 x rotC = (x.extractLsb' 0 15 ++ x.extractLsb' 15 17 : BitVec (15 + 17))

/-! ### The round (40_round.md) -/

/-- R76: the five lines of ROUND, as numbers modulo 2^32 and bit by bit: e, then a', b', c', and d' from the already
updated a'; and the rule's example. -/
def Obligations.RoundComputesItsFiveLines : Prop :=
  (∀ g : GeneratorState, ∃ e rb : Word,
    (∀ i, i < 32 → rb.getLsbD i = g.b.getLsbD ((i + 5) % 32)) ∧
    e.toNat = (2 ^ 32 + g.a.toNat - rb.toNat) % 2 ^ 32 ∧
    (∀ i, i < 32 → (genRound g).a.getLsbD i = (g.b.getLsbD i ^^ g.c.getLsbD ((i + 15) % 32))) ∧
    (genRound g).b.toNat = (g.c.toNat + g.d.toNat) % 2 ^ 32 ∧
    (genRound g).c.toNat = (g.d.toNat + e.toNat) % 2 ^ 32 ∧
    (genRound g).d.toNat = (e.toNat + (genRound g).a.toNat) % 2 ^ 32) ∧
  roundE 0x00000001#32 0x00000002#32 = 0xF0000001#32 ∧
  genRound ⟨0x00000001#32, 0x00000002#32, 0x00000003#32, 0x00000004#32⟩ =
    ⟨0x00060002#32, 0x00000007#32, 0xF0000005#32, 0xF0060003#32⟩

/-- R79: the parallel form, all four results from the old words alone; with the old a in place of a' the last word would
be another one. -/
def Obligations.RoundHasAParallelForm : Prop :=
  (∀ g : GeneratorState, genRound g =
    { a := g.b ^^^ g.c.rotateLeft 17
      b := g.c + g.d
      c := g.d + (g.a - g.b.rotateLeft 27)
      d := (g.a - g.b.rotateLeft 27) + (g.b ^^^ g.c.rotateLeft 17) }) ∧
  add32 (roundE 0x00000001#32 0x00000002#32) 0x00000001#32 = 0xF0000002#32

/-- R80: ROUND is a bijection of the states, and the inverse is the one the rule gives; and the rule's example. -/
def Obligations.RoundHasAnInverse : Prop :=
  Function.Bijective genRound ∧ (∀ g, invRound (genRound g) = g) ∧ (∀ g, genRound (invRound g) = g) ∧
  (∀ g : GeneratorState, ∃ e : Word,
    e = sub32 g.d g.a ∧ (invRound g).d = sub32 g.c e ∧ (invRound g).c = sub32 g.b (invRound g).d ∧
    (invRound g).b = xor32 g.a (rotl32 (invRound g).c rotC) ∧ (invRound g).a = add32 e (rotl32 (invRound g).b rotB)) ∧
  invRound ⟨0x00060002#32, 0x00000007#32, 0xF0000005#32, 0xF0060003#32⟩ = ⟨1#32, 2#32, 3#32, 4#32⟩

/-- R81: every state lies on a cycle, with no lead-in, of a length of at most 2^128. -/
def Obligations.RoundReturnsToItsStart : Prop :=
  ∀ g : GeneratorState, ∃ n, 0 < n ∧ n ≤ 2 ^ 128 ∧ roundN n g = g

/-- R82: the all-zero state is a fixed point, no other state maps to it, and an engine whose state is all zero outputs 0
for ever under NEXT. -/
def Obligations.ZeroStateIsFixed : Prop :=
  genRound ⟨0#32, 0#32, 0#32, 0#32⟩ = ⟨0#32, 0#32, 0#32, 0#32⟩ ∧ roundE 0#32 0#32 = 0#32 ∧
  (∀ g, genRound g = ⟨0#32, 0#32, 0#32, 0#32⟩ → g = ⟨0#32, 0#32, 0#32, 0#32⟩) ∧
  ∀ (n : Nat) (s : State), s.gen = ⟨0#32, 0#32, 0#32, 0#32⟩ →
    ∃ t, runScript (List.replicate n .next) s = .next (List.replicate n 0#32, t) ∧ t.gen = s.gen

/-- R83: after INIT and any number of NEXT commands the state is not all zero; a script that ends in the all-zero state
held no INIT and began in it. -/
def Obligations.SeededIsNeverZero : Prop :=
  (∀ (seed : Word) (n : Nat), roundN n (seededState seed) ≠ ⟨0#32, 0#32, 0#32, 0#32⟩) ∧
  ∀ (is : List Instr) (s : State), ∃ ws t, runScript is s = .next (ws, t) ∧
    (t.gen = ⟨0#32, 0#32, 0#32, 0#32⟩ → s.gen = ⟨0#32, 0#32, 0#32, 0#32⟩ ∧ ∀ i ∈ is, i = .next)

/-! ### NEXT (41_next.md) -/

/-- R90: in every state NEXT answers the state with the words of one round, `ov` = 1, and nothing else changed (`seeded`,
`rc` and the model's own fields as before); the result is out_valid = 1 and out_data = d'; its encoding; and the rule's
example. -/
def Obligations.NextAdvancesOneRound : Prop :=
  (∀ ign : Word, decode (packCommand 0#1 ign) = .next) ∧
  (∀ s : State, exec .next s = .next { s with
    gen := { a := s.gen.b ^^^ s.gen.c.rotateLeft 17
             b := s.gen.c + s.gen.d
             c := s.gen.d + (s.gen.a - s.gen.b.rotateLeft 27)
             d := (s.gen.a - s.gen.b.rotateLeft 27) + (s.gen.b ^^^ s.gen.c.rotateLeft 17) }
    ov := true }) ∧
  (∀ s : State, ∃ t, exec .next s = .next t ∧ t.seeded = s.seeded ∧ offered t = some (genRound s.gen).d ∧
    ∀ rst obs, (outputs rst obs t).outValid = true ∧ (outputs rst obs t).outData = (genRound s.gen).d) ∧
  ∀ s : State, s.gen = ⟨0x00000001#32, 0x00000002#32, 0x00000003#32, 0x00000004#32⟩ →
    ∃ t, exec .next s = .next t ∧ t.gen = ⟨0x00060002#32, 0x00000007#32, 0xF0000005#32, 0xF0060003#32⟩ ∧
      ∀ rst obs, (outputs rst obs t).outValid = true ∧ (outputs rst obs t).outData = 0xF0060003#32

/-- R93: NEXT is refused in no state; and with `seeded` = 0 an idle engine performs the NEXT its host presents as in any other state: it delivers the new d
with `ov` = 1 and leaves `seeded` = 0. -/
def Obligations.NextBeforeInitRuns : Prop :=
  (∀ s : State, ∃ t, exec .next s = .next t) ∧
  ∀ (s : State) (seed : Word) (ws : List CommandWord),
    s.seeded = false → s.rc = 0#5 → s.host = .script (packCommand 0#1 seed :: ws) →
    ∃ t, step s = .next t ∧ t.gen = genRound s.gen ∧ t.seeded = false ∧ t.ov = true ∧
      offered t = some (genRound s.gen).d ∧ t.rc = 0#5 ∧ t.draws = s.draws ∧ t.host = .script ws

/-- R94: the corner cases of NEXT that give numbers, in every state that holds the words. -/
def Obligations.NextCornerCases : Prop :=
  ∀ s : State, ∃ t, exec .next s = .next t ∧ t.ov = true ∧ t.seeded = s.seeded ∧
    (s.gen = ⟨0#32, 0#32, 0#32, 0#32⟩ → t.gen = ⟨0#32, 0#32, 0#32, 0#32⟩) ∧
    (s.gen = ⟨0xFFFFFFFF#32, 0xFFFFFFFF#32, 0xFFFFFFFF#32, 0xFFFFFFFF#32⟩ →
      t.gen = ⟨0x00000000#32, 0xFFFFFFFE#32, 0xFFFFFFFF#32, 0x00000000#32⟩) ∧
    (s.gen = ⟨0#32, 1#32, 0#32, 0#32⟩ → t.gen = ⟨0x00000001#32, 0x00000000#32, 0xF8000000#32, 0xF8000001#32⟩) ∧
    (s.gen.c = 0xFFFFFFFF#32 ∧ s.gen.d = 0xFFFFFFFF#32 → t.gen.b = 0xFFFFFFFE#32)

/-- R96: n NEXT commands from the state S0 return the fourth words of ROUND^1(S0) to ROUND^n(S0), in order, and leave
ROUND^n(S0); nothing else changes but `ov`. -/
def Obligations.NextCommandsGiveTheStream : Prop :=
  ∀ (n : Nat) (s : State), runScript (List.replicate n .next) s =
    .next ((List.range n).map (fun k => (roundN (k + 1) s.gen).d),
      { s with gen := roundN n s.gen, ov := s.ov || decide (0 < n) })

/-! ### INIT (42_init.md) -/

/-- R100: in every state and for every seed INIT answers the state with ROUND^20(0xF1EA5EED, seed, seed, seed),
`seeded` = 1, `ov` = 0, and nothing else changed; its encoding; and the rule's example, with the NEXT that follows. -/
def Obligations.InitSeedsTheEngine : Prop :=
  (∀ seed : Word, decode (packCommand 1#1 seed) = .init seed) ∧
  (∀ (seed : Word) (s : State), exec (.init seed) s = .next { s with
    gen := roundN 20 ⟨0xF1EA5EED#32, seed, seed, seed⟩, seeded := true, ov := false }) ∧
  ∀ s : State, ∃ t u, exec (.init 0#32) s = .next t ∧
    t.gen = ⟨0x1B517AA6#32, 0x0D3D55A3#32, 0x44D68D47#32, 0x7A484BC9#32⟩ ∧ t.seeded = true ∧ t.ov = false ∧
    exec .next t = .next u ∧ offered u = some 0x1A9B6C07#32

/-- R101: INIT is LOAD and then MIX twenty times. -/
def Obligations.InitIsLoadThenTwentyMix : Prop :=
  ∀ (seed : Word) (s : State),
    (s.load seed).gen = ⟨0xF1EA5EED#32, seed, seed, seed⟩ ∧
    (∀ t : State, t.mix.gen = genRound t.gen ∧ t.mix.gen = t.advance.gen ∧ t.advance.ov = true ∧ t.mix.ov = t.ov) ∧
    (s.rc = 0#5 → exec (.init seed) s = .next (State.mix^[20] (s.load seed)))

/-- R104: identical seed, identical resulting state, identical entire subsequent output, for any later commands and
whatever the two states before were. -/
def Obligations.SameSeedSameStream : Prop :=
  ∀ (s₁ s₂ : State) (seed : Word) (is : List Instr), ∃ ws t₁ t₂,
    runScript (.init seed :: is) s₁ = .next (ws, t₁) ∧ runScript (.init seed :: is) s₂ = .next (ws, t₂) ∧
    t₁.gen = t₂.gen ∧ t₁.seeded = t₂.seeded ∧ t₁.ov = t₂.ov

/-- R105: INIT after any commands leaves the state of its own seed and returns no further word; INIT s twice is INIT s. -/
def Obligations.InitErasesThePast : Prop :=
  (∀ (is : List Instr) (seed : Word) (s : State), ∃ ws t u,
    runScript is s = .next (ws, t) ∧ runScript (is ++ [.init seed]) s = .next (ws, u) ∧
    u.gen = seededState seed ∧ u.seeded = true ∧ u.ov = false) ∧
  ∀ (seed : Word) (s : State), runScript [.init seed, .init seed] s = runScript [.init seed] s

/-- 93_implementation_defined.md U4: distinct seeds give distinct states after INIT, in the running engine too. -/
def Obligations.DistinctSeedsDistinctStates : Prop :=
  ∀ (seed seed' : Word) (n : Nat), roundN n (seededState seed) = roundN n (seededState seed') → seed = seed'

/-- R106: INIT delivers no word, and the first word after it is that of the twenty-first round. -/
def Obligations.InitDeliversNoWord : Prop :=
  ∀ (seed : Word) (s : State), ∃ t u, exec (.init seed) s = .next t ∧ offered t = none ∧
    (∀ rst obs, (outputs rst obs t).outValid = false) ∧
    exec .next t = .next u ∧ offered u = some (roundN 21 ⟨0xF1EA5EED#32, seed, seed, seed⟩).d

/-! ### Commands, runs and steps (10_state.md, 20_memory.md, 60_exceptions.md) -/

/-- R25: the five rows of the transition table of the logical state. Of the words after a reset, which are unspecified,
nothing is said. -/
def Obligations.LogicalStateTransitions : Prop :=
  (∀ (s : State) (seed : Word), ∃ t, exec (.init seed) s = .next t ∧ logicalState t = .running ∧
    t.gen = seededState seed ∧ t.ov = false ∧ offered t = none) ∧
  (∀ s : State, logicalState s = .fresh → ∃ t, exec .next s = .next t ∧ logicalState t = .fresh ∧
    t.gen = genRound s.gen ∧ t.ov = true ∧ offered t = some t.gen.d) ∧
  (∀ s : State, logicalState s = .running → ∃ t, exec .next s = .next t ∧ logicalState t = .running ∧
    t.gen = genRound s.gen ∧ t.ov = true ∧ offered t = some t.gen.d) ∧
  ∀ (s : State) (p : PortInputs), p.rst = true → logicalState (clockEdge p s) = .fresh ∧
    (clockEdge p s).ov = false ∧ offered (clockEdge p s) = none

/-- R120: no command fails in any state, no step stops, and every script runs to its end. -/
def Obligations.NothingEverFails : Prop :=
  (∀ (i : Instr) (s : State), ∃ t, exec i s = .next t) ∧ (∀ s : State, GoesOn s) ∧
  ∀ (is : List Instr) (s : State), ∃ ws t, runScript is s = .next (ws, t)

/-- A step runs the decoded command: on an idle engine the next command word of the script is taken from the list (that
the list stands in State is the model's choice, log 1) and performed as `exec` says. The second clause is the model's
choice alone, logs 1, 11 and 13, and no rule gives it: a 33-bit word presented through the host's entry withFetchWord is
the one the very next step runs, with rc set to 0 and a cycle-level run turned into an empty script. -/
def Obligations.StepRunsTheDecodedCommand : Prop :=
  (∀ (s : State) (w : CommandWord) (ws : List CommandWord), s.host = .script (w :: ws) → s.rc = 0#5 →
    step s = exec (decode w) { s with host := .script ws }) ∧
  ∀ (s : State) (i : Instr),
    step (s.withFetchWord 40 (encode i).toNat) = exec i { s with rc := 0#5, host := .script s.host.commands }

/-- What else a step does (the model's choices of logs 1, 2 and 6): at the cycle level it performs the next edge; a
command that waits for a busy engine stays in the list while the engine mixes; with nothing left the host idles. -/
def Obligations.StepPerformsEdgesAndWaits : Prop :=
  (∀ (s : State) (p : PortInputs) (ps : List PortInputs), s.host = .edges (p :: ps) →
    step s = .next (clockEdge p { s with host := .edges ps })) ∧
  (∀ (s : State) (ws : List CommandWord), s.host = .script ws → s.rc ≠ 0#5 → step s = .next s.mix) ∧
  (∀ s : State, s.host = .script [] ∨ s.host = .edges [] → s.rc = 0#5 → step s = .next s) ∧
  ∀ s : State, s.host = .edges [] → s.rc ≠ 0#5 → step s = .next s.mix

/-- R36: the commands of a script are performed one for each step, in order, each on the state the one before it left.
That the script stands in State, and is empty at the end, is the model's choice, log 1. -/
def Obligations.ScriptRunsAsSteps : Prop :=
  ∀ (is : List Instr) (s : State), s.rc = 0#5 → s.host = .script (is.map encode) →
    ∃ ws t, runScript is s = .next (ws, t) ∧
      Host.Core.run Sys2Proof.core is.length s = .next { t with host := .script [] }

/-- R150: the steps of a run at the cycle level are its clock edges, one for each input value, in order. That the input
values stand in State, and are used up at the end, is the model's choice, log 1. -/
def Obligations.EdgesRunAsSteps : Prop :=
  ∀ (ps : List PortInputs) (s : State), s.host = .edges ps →
    Host.Core.run Sys2Proof.core ps.length s = .next { runEdges ps s with host := .edges [] }

/-! ### The cycle level (70_reset_and_hazards.md) -/

/-- R151: the outputs are functions of the state and of `rst`, and `out_data` is d while `ov` = 1. The second clause is the
model's choice alone, log 5, and no rule gives it: while `ov` = 0 what an observation finds on `out_data` is a free value
of the observation's number and not of the state (R57 lets an implementation drive d there). -/
def Obligations.OutputsFollowTheState : Prop :=
  (∀ (s : State) (rst : Bool) (obs : Nat),
    (outputs rst obs s).outValid = s.ov ∧ (outputs rst obs s).seeded = s.seeded ∧
    ((outputs rst obs s).busy = true ↔ s.rc ≠ 0#5) ∧
    ((outputs rst obs s).cmdReady = true ↔ s.rc = 0#5 ∧ rst = false) ∧
    (s.ov = true → (outputs rst obs s).outData = s.gen.d)) ∧
  ∀ (s s' : State) (obs : Nat), s.ov = false → s'.ov = false → outData obs s = outData obs s'

/-- R153: the five cases of a rising edge, in their order of priority, and all that each writes. Of the draw that a reset
takes nothing is said but that it fills the four words (`draws` is the model's own count of draws). -/
def Obligations.EdgeTakesOneOfFiveCases : Prop :=
  ∀ (p : PortInputs) (s : State),
    (p.rst = true → ∃ abcd draws, clockEdge p s =
      { s with gen := abcd, seeded := false, ov := false, rc := 0#5, draws := draws }) ∧
    (p.rst = false → s.rc ≠ 0#5 → clockEdge p s =
      { s with gen := genRound s.gen, rc := s.rc - 1#5, seeded := if s.rc = 1#5 then true else s.seeded }) ∧
    (p.rst = false → s.rc = 0#5 → p.cmdValid = true → p.cmdOp = 1#1 → clockEdge p s =
      { s with gen := ⟨0xF1EA5EED#32, p.cmdSeed, p.cmdSeed, p.cmdSeed⟩, rc := 20#5, seeded := false, ov := false }) ∧
    (p.rst = false → s.rc = 0#5 → p.cmdValid = true → p.cmdOp = 0#1 → clockEdge p s =
      { s with gen := genRound s.gen, ov := true }) ∧
    (p.rst = false → s.rc = 0#5 → p.cmdValid = false → clockEdge p s = s)

/-- R152: a command is transferred at an edge if and only if `cmd_valid` = 1 and `cmd_ready` = 1, and it is the one that
`cmd_op` and `cmd_seed` encode at that edge. -/
def Obligations.AcceptanceIsValidAndReady : Prop :=
  ∀ (p : PortInputs) (s : State) (obs : Nat),
    (accept p s = true ↔ p.cmdValid = true ∧ (outputs p.rst obs s).cmdReady = true) ∧
    (accept p s = true → transferred p s = some (if p.cmdOp = 1#1 then .init p.cmdSeed else .next)) ∧
    (accept p s = false → transferred p s = none)

/-- R140, R141: a reset edge leaves a launch state, fresh and idle, from any state (an INIT in progress too) and with any
other inputs, and accepts no command; and no command resets the engine: INIT leaves `seeded` = 1 and NEXT leaves `ov` = 1.
Of the words that a reset draws nothing is said. -/
def Obligations.ResetFromAnyState : Prop :=
  (∀ (p : PortInputs) (s : State), p.rst = true →
    (∃ abcd draws, clockEdge p s = State.launch abcd draws s.host) ∧ transferred p s = none ∧
    ∀ obs, (outputs true obs s).cmdReady = false ∧
      (outputs false obs (clockEdge p s)).cmdReady = true ∧ (outputs false obs (clockEdge p s)).busy = false ∧
      (outputs false obs (clockEdge p s)).seeded = false ∧ (outputs false obs (clockEdge p s)).outValid = false) ∧
  ∀ (seed : Word) (s : State), ∃ t u, exec (.init seed) s = .next t ∧ t.seeded = true ∧ exec .next s = .next u ∧
    u.ov = true

/-- The model's choices of logs 3 and 4: a reset edge takes the draw its own counter names and advances the counter, so
that every reset takes another draw; no other edge and no command draws. The values of the draws are free. -/
def Obligations.EveryResetTakesAFreshDraw : Prop :=
  (∀ (p : PortInputs) (s : State), p.rst = true →
    clockEdge p s = State.launch (drawAbcd s.draws) (s.draws + 1) s.host) ∧
  (∀ (p : PortInputs) (s : State), p.rst = false → (clockEdge p s).draws = s.draws) ∧
  ∀ (i : Instr) (s : State), ∃ t, exec i s = .next t ∧ t.draws = s.draws

/-- R148: while `rc` != 0 an edge ignores the command port and accepts nothing; a command that the host keeps presenting
is accepted once, at the first ready edge, on the state the completed INIT left. -/
def Obligations.CommandsWaitWhileBusy : Prop :=
  ∀ (s : State) (cw : CommandWord), s.rc ≠ 0#5 →
    (∀ rst obs, (outputs rst obs s).cmdReady = false) ∧
    (∀ p : PortInputs, p.rst = false → clockEdge p s = clockEdge idlePorts s ∧ transferred p s = none) ∧
    acceptedCommands (List.replicate (s.rc.toNat + 1) (presentPorts cw)) s = [decode cw] ∧
    runEdges (List.replicate (s.rc.toNat + 1) (presentPorts cw)) s =
      clockEdge (presentPorts cw) (runEdges (List.replicate s.rc.toNat idlePorts) s)

/-- R149: a command is accepted at every edge with `cmd_valid` = 1 and `cmd_ready` = 1; so a NEXT presented over n
consecutive edges is n NEXT commands, n rounds and n words, of which the last remains on offer. -/
def Obligations.HeldNextIsManyCommands : Prop :=
  (∀ (p : PortInputs) (s : State), (transferred p s).isSome = true ↔ p.cmdValid = true ∧ cmdReady p.rst s = true) ∧
  ∀ (n : Nat) (seed : Word) (s : State), s.rc = 0#5 →
    acceptedCommands (List.replicate n (presentPorts (packCommand 0#1 seed))) s = List.replicate n .next ∧
    edgeWords (List.replicate n (presentPorts (packCommand 0#1 seed))) s =
      (List.range n).map (fun k => (roundN (k + 1) s.gen).d) ∧
    runEdges (List.replicate n (presentPorts (packCommand 0#1 seed))) s =
      { s with gen := roundN n s.gen, ov := s.ov || decide (0 < n) } ∧
    (0 < n → offered (runEdges (List.replicate n (presentPorts (packCommand 0#1 seed))) s) = some (roundN n s.gen).d)

/-- R155, R107: at the cycle level `seeded` rises only at the edge at which `rc` goes from 1 to 0; at the command level
only INIT raises it. -/
def Obligations.SeededRisesOnlyAtCompletion : Prop :=
  (∀ (p : PortInputs) (s : State), s.seeded = false →
    ((clockEdge p s).seeded = true ↔ p.rst = false ∧ s.rc = 1#5)) ∧
  (∀ (p : PortInputs) (s : State), p.rst = false → s.rc = 1#5 → (clockEdge p s).rc = 0#5) ∧
  ∀ (i : Instr) (s : State), ∃ t, exec i s = .next t ∧
    (s.seeded = false → (t.seeded = true ↔ ∃ seed, i = .init seed))

/-- R17, R146: a word stays on offer until the next command is accepted or reset; only an accepted NEXT puts one on
offer. -/
def Obligations.OutputStaysOnOffer : Prop :=
  ∀ (p : PortInputs) (s : State),
    ((clockEdge p s).ov = true ↔
      p.rst = false ∧ (transferred p s = some .next ∨ (s.ov = true ∧ transferred p s = none))) ∧
    (s.rc = 0#5 → p.rst = false → transferred p s = none → offered (clockEdge p s) = offered s)

/-- R156: with `rst` = 0 and `cmd_valid` = 0 an idle engine keeps its state for any number of edges. -/
def Obligations.IdleEdgesChangeNothing : Prop :=
  ∀ (ps : List PortInputs) (s : State), s.rc = 0#5 → (∀ p ∈ ps, p.rst = false ∧ p.cmdValid = false) →
    runEdges ps s = s

/-- R157: the table of an INIT accepted at t0, for k = 0 to 20 edges after it, whatever the host presents meanwhile. -/
def Obligations.InitTimeline : Prop :=
  ∀ (s : State) (p : PortInputs) (ps : List PortInputs),
    s.rc = 0#5 → p.rst = false → p.cmdValid = true → p.cmdOp = 1#1 → RstLow ps → ps.length ≤ Config.initBusyCycles →
    let t := runEdges ps (clockEdge p s)
    t.rc.toNat = 20 - ps.length ∧ busy t = decide (ps.length < 20) ∧ cmdReady false t = decide (ps.length = 20) ∧
    t.seeded = decide (ps.length = 20) ∧ t.ov = false ∧
    t.gen = roundN ps.length ⟨0xF1EA5EED#32, p.cmdSeed, p.cmdSeed, p.cmdSeed⟩

/-- R158: a NEXT accepted at an edge takes effect at that edge, and the next command can be accepted at the following
one. -/
def Obligations.NextTimeline : Prop :=
  ∀ (s : State) (p : PortInputs), s.rc = 0#5 → p.rst = false → p.cmdValid = true → p.cmdOp = 0#1 →
    (clockEdge p s).gen = genRound s.gen ∧ (clockEdge p s).ov = true ∧
    (∀ obs, (outputs false obs (clockEdge p s)).outData = (genRound s.gen).d) ∧
    (clockEdge p s).rc = 0#5 ∧ busy (clockEdge p s) = false ∧ cmdReady false (clockEdge p s) = true ∧
    ∀ cw : CommandWord, transferred (presentPorts cw) (clockEdge p s) = some (decode cw)

/-- R161: from `rc` = k, with `rst` = 0, `rc` is 0 after exactly k further edges and not before; and from a state that
meets the invariant no non-reset edge leaves more than 20 edges to wait. -/
def Obligations.BusyEndsAfterExactlyRcEdges : Prop :=
  (∀ (s : State) (ps : List PortInputs), RstLow ps → ps.length = s.rc.toNat →
    (runEdges ps s).rc = 0#5 ∧ ∀ k, k < s.rc.toNat → (runEdges (ps.take k) s).rc ≠ 0#5) ∧
  ∀ (s : State) (p : PortInputs), EngineInv s → p.rst = false → (clockEdge p s).rc.toNat ≤ 20

/-- R160, the refinement: from an idle state, with `rst` = 0, at every edge after which `rc` = 0 the cycle level holds the
state that the command level reaches by performing the accepted commands in order, and the words seen just after each STEP
edge are the words the command level returns. -/
def Obligations.CycleLevelRefinesCommandLevel : Prop :=
  ∀ (ps : List PortInputs) (s : State), s.rc = 0#5 → RstLow ps → (runEdges ps s).rc = 0#5 →
    runScript (acceptedCommands ps s) s = .next (edgeWords ps s, runEdges ps s)

/-- R163: two runs at the cycle level that accept the same commands have the same observation, whatever idle cycles or
waiting the host inserts, and it is that of the script at the command level. The runs hold no second reset (`rst` stays
0): R163 says nothing of such runs. -/
def Obligations.WaitingIsNotObserved : Prop :=
  ∀ (ps qs : List PortInputs) (s : State), s.rc = 0#5 → RstLow ps → RstLow qs →
    (runEdges ps s).rc = 0#5 → (runEdges qs s).rc = 0#5 → acceptedCommands ps s = acceptedCommands qs s →
    observeEdges ps s = observeEdges qs s ∧ observeEdges ps s = observeScript (acceptedCommands ps s) s ∧
    (observeEdges ps s).isSome = true

/-! ### The invariant (10_state.md R16, R18; 70_reset_and_hazards.md R155, R157) -/

/-- Every step keeps the invariant: `rc` is 0 to 20; while it is not 0 the state is that of an INIT in progress; and
`seeded` = 1 means a completed INIT followed only by NEXT commands. -/
def Obligations.StepKeepsTheInvariant : Prop :=
  ∀ s : State, EngineInv s → ∃ t, step s = .next t ∧ EngineInv t

/-- The state after reset meets the invariant, and so does the launch state of every draw. -/
def Obligations.ResetMeetsTheInvariant : Prop :=
  EngineInv State.reset ∧ ∀ (abcd : GeneratorState) (draws : Nat) (host : HostInput), EngineInv (State.launch abcd draws host)

/-- R22, R143: what reset leaves, for every draw of the state words: `seeded` = 0, `ov` = 0, `rc` = 0, ready for a
command and no word on offer. Nothing is said of the words, whose value is the model's free value (log 3). -/
def Obligations.ResetLeavesFreshAndIdle : Prop :=
  (State.reset.seeded = false ∧ State.reset.ov = false ∧ State.reset.rc = 0#5) ∧
  ∀ (abcd : GeneratorState) (draws : Nat) (host : HostInput) (obs : Nat),
    logicalState (State.launch abcd draws host) = .fresh ∧ offered (State.launch abcd draws host) = none ∧
    (outputs false obs (State.launch abcd draws host)).cmdReady = true ∧
    (outputs false obs (State.launch abcd draws host)).busy = false ∧
    (State.launch abcd draws host).gen = abcd

/-! ### The script syntax (30_encoding.md R60, R61) -/

/-- R60: a script written one command a line reads back as the same commands, and assembles to their words. -/
def Obligations.ScriptsReadBack : Prop :=
  ∀ is : List Instr, readScript (writeScript is) = some is ∧
    assembleScript (writeScript is) = some (is.map encode)

/-- R61: `next xN` stands for N consecutive `next` lines, for every N. That N is written in decimal is the model's choice,
log 12. -/
def Obligations.NextTimesExpands : Prop :=
  ∀ n : Nat, readLine (nextText ++ ' ' :: 'x' :: Nat.toDigits 10 n) = some (List.replicate n .next)

/-- R60: a decimal seed of 0 to 4294967295 is read as that seed, and a larger one is a syntax error. -/
def Obligations.DecimalSeedsAreRangeChecked : Prop :=
  ∀ n : Nat, readLine (initText ++ ' ' :: Nat.toDigits 10 n) =
    if n ≤ 4294967295 then some [.init (BitVec.ofNat 32 n)] else none
end

