-- ==== Sys2Proof/Laws/Encoding.lean ====
section
/-! SUPPORT. The two fields of a command word and the concatenation that makes one (30_encoding.md R53). -/

namespace Sys2Proof

/-- Bit 32 of a command word is its opcode. -/
theorem packCommand_getLsbD (op : BitVec 1) (seed : Word) (i : Nat) :
    (packCommand op seed).getLsbD i = if i < 32 then seed.getLsbD i else op.getLsbD (i - 32) := by
  show (op ++ seed : BitVec (1 + 32)).getLsbD i = _
  rw [BitVec.getLsbD_append]

/-- The opcode put into a command word is read from it. -/
theorem opField_packCommand (op : BitVec 1) (seed : Word) : opField (packCommand op seed) = op := by
  apply BitVec.eq_of_getLsbD_eq
  intro i hi
  simp only [opField, BitVec.getLsbD_extractLsb', packCommand_getLsbD]
  simp [hi, show ¬ 32 + i < 32 by omega]

/-- The seed put into a command word is read from it. -/
theorem seedField_packCommand (op : BitVec 1) (seed : Word) : seedField (packCommand op seed) = seed := by
  apply BitVec.eq_of_getLsbD_eq
  intro i hi
  simp only [seedField, BitVec.getLsbD_extractLsb', packCommand_getLsbD]
  simp [hi]

/-- A command word is its two fields. -/
theorem packCommand_fields (cw : CommandWord) : packCommand (opField cw) (seedField cw) = cw := by
  apply BitVec.eq_of_getLsbD_eq
  intro i hi
  rw [packCommand_getLsbD]
  split
  · next h => simp only [seedField, BitVec.getLsbD_extractLsb']; simp [h]
  · next h =>
    have : i = 32 := by omega
    subst this
    simp only [opField, BitVec.getLsbD_extractLsb']
    simp

/-- A 1-bit opcode is one of the two. -/
theorem opcode_cases (op : BitVec 1) : op = opNext ∨ op = opInit := by
  revert op; decide

/-- The decoder on a command word given by its fields. -/
theorem decode_packCommand (op : BitVec 1) (seed : Word) :
    decode (packCommand op seed) = if op = opInit then .init seed else .next := by
  rw [decode, opField_packCommand, seedField_packCommand]

end Sys2Proof
end

