-- ==== Sys2Proof/Laws/State.lean ====
section
/-! SUPPORT. One lemma per field per update of the state, true by rfl (after a case split on the state where the kernel needs it): a proof about an update never unfolds it. -/

namespace Sys2Proof.Machine

@[simp] theorem State.advance_gen (s : State) : (s.advance).gen = genRound s.gen := rfl
@[simp] theorem State.advance_seeded (s : State) : (s.advance).seeded = s.seeded := rfl
@[simp] theorem State.advance_ov (s : State) : (s.advance).ov = true := rfl
@[simp] theorem State.advance_rc (s : State) : (s.advance).rc = s.rc := rfl
@[simp] theorem State.advance_draws (s : State) : (s.advance).draws = s.draws := rfl
@[simp] theorem State.advance_host (s : State) : (s.advance).host = s.host := rfl

@[simp] theorem State.seedWith_gen (seed : Word) (s : State) : (s.seedWith seed).gen = seededState seed := rfl
@[simp] theorem State.seedWith_seeded (seed : Word) (s : State) : (s.seedWith seed).seeded = true := rfl
@[simp] theorem State.seedWith_ov (seed : Word) (s : State) : (s.seedWith seed).ov = false := rfl
@[simp] theorem State.seedWith_rc (seed : Word) (s : State) : (s.seedWith seed).rc = s.rc := by
  cases s; rfl
@[simp] theorem State.seedWith_draws (seed : Word) (s : State) : (s.seedWith seed).draws = s.draws := by
  cases s; rfl
@[simp] theorem State.seedWith_host (seed : Word) (s : State) : (s.seedWith seed).host = s.host := by
  cases s; rfl

@[simp] theorem State.load_gen (seed : Word) (s : State) : (s.load seed).gen = loadState seed := rfl
@[simp] theorem State.load_seeded (seed : Word) (s : State) : (s.load seed).seeded = false := rfl
@[simp] theorem State.load_ov (seed : Word) (s : State) : (s.load seed).ov = false := rfl
@[simp] theorem State.load_rc (seed : Word) (s : State) : (s.load seed).rc = BitVec.ofNat 5 initRounds := rfl
@[simp] theorem State.load_draws (seed : Word) (s : State) : (s.load seed).draws = s.draws := rfl
@[simp] theorem State.load_host (seed : Word) (s : State) : (s.load seed).host = s.host := rfl

@[simp] theorem State.mix_gen (s : State) : (s.mix).gen = genRound s.gen := rfl
@[simp] theorem State.mix_seeded (s : State) : (s.mix).seeded = if s.rc = 1#5 then true else s.seeded := rfl
@[simp] theorem State.mix_ov (s : State) : (s.mix).ov = s.ov := rfl
@[simp] theorem State.mix_rc (s : State) : (s.mix).rc = s.rc - 1#5 := rfl
@[simp] theorem State.mix_draws (s : State) : (s.mix).draws = s.draws := rfl
@[simp] theorem State.mix_host (s : State) : (s.mix).host = s.host := rfl

@[simp] theorem State.resetEdge_gen (s : State) : (s.resetEdge).gen = drawAbcd s.draws := rfl
@[simp] theorem State.resetEdge_seeded (s : State) : (s.resetEdge).seeded = false := rfl
@[simp] theorem State.resetEdge_ov (s : State) : (s.resetEdge).ov = false := rfl
@[simp] theorem State.resetEdge_rc (s : State) : (s.resetEdge).rc = 0#5 := rfl
@[simp] theorem State.resetEdge_draws (s : State) : (s.resetEdge).draws = s.draws + 1 := rfl
@[simp] theorem State.resetEdge_host (s : State) : (s.resetEdge).host = s.host := rfl

@[simp] theorem State.withHost_gen (h : HostInput) (s : State) : (s.withHost h).gen = s.gen := rfl
@[simp] theorem State.withHost_seeded (h : HostInput) (s : State) : (s.withHost h).seeded = s.seeded := rfl
@[simp] theorem State.withHost_ov (h : HostInput) (s : State) : (s.withHost h).ov = s.ov := rfl
@[simp] theorem State.withHost_rc (h : HostInput) (s : State) : (s.withHost h).rc = s.rc := rfl
@[simp] theorem State.withHost_draws (h : HostInput) (s : State) : (s.withHost h).draws = s.draws := rfl
@[simp] theorem State.withHost_host (h : HostInput) (s : State) : (s.withHost h).host = h := rfl

@[simp] theorem State.launch_gen (g : GeneratorState) (n : Nat) (h : HostInput) : (State.launch g n h).gen = g := rfl
@[simp] theorem State.launch_seeded (g : GeneratorState) (n : Nat) (h : HostInput) : (State.launch g n h).seeded = false := rfl
@[simp] theorem State.launch_ov (g : GeneratorState) (n : Nat) (h : HostInput) : (State.launch g n h).ov = false := rfl
@[simp] theorem State.launch_rc (g : GeneratorState) (n : Nat) (h : HostInput) : (State.launch g n h).rc = 0#5 := rfl
@[simp] theorem State.launch_draws (g : GeneratorState) (n : Nat) (h : HostInput) : (State.launch g n h).draws = n := rfl
@[simp] theorem State.launch_host (g : GeneratorState) (n : Nat) (h : HostInput) : (State.launch g n h).host = h := rfl

@[simp] theorem present_gen (cw : CommandWord) (s : State) : (present cw s).gen = s.gen := rfl
@[simp] theorem present_seeded (cw : CommandWord) (s : State) : (present cw s).seeded = s.seeded := rfl
@[simp] theorem present_ov (cw : CommandWord) (s : State) : (present cw s).ov = s.ov := rfl
@[simp] theorem present_rc (cw : CommandWord) (s : State) : (present cw s).rc = 0#5 := rfl
@[simp] theorem present_draws (cw : CommandWord) (s : State) : (present cw s).draws = s.draws := rfl
@[simp] theorem present_host (cw : CommandWord) (s : State) : (present cw s).host = .script (cw :: s.host.commands) := rfl

end Sys2Proof.Machine
end

