-- ==== Sys2Proof/Laws/Ops.lean ====
section
/-! SUPPORT. For each shared operation one lemma that says what it can do; the proofs cite these and unfold nothing. -/

namespace Sys2Proof.Machine

/-- An amount is 1 to 31. -/
theorem rotAmount_bounds (k : RotAmount) : 1 ≤ k.val ∧ k.val ≤ 31 := by
  simpa [rotAmountOk] using k.property

@[simp] theorem rotB_val : rotB.val = 27 := rfl
@[simp] theorem rotC_val : rotC.val = 17 := rfl
@[simp] theorem coAmount_val (k : RotAmount) : (coAmount k).val = 32 - k.val := rfl

/-- The rotation of the spec is the library's rotation of a bit vector. -/
theorem rotl32_eq_rotateLeft (x : Word) (k : RotAmount) : rotl32 x k = x.rotateLeft k.val := by
  obtain ⟨_, hk⟩ := rotAmount_bounds k
  rw [BitVec.rotateLeft_def]
  simp [rotl32, shl32, shr32, Nat.mod_eq_of_lt (show k.val < 32 by omega)]

@[simp] theorem genRound_a (g : GeneratorState) : (genRound g).a = xor32 g.b (rotl32 g.c rotC) := rfl
@[simp] theorem genRound_b (g : GeneratorState) : (genRound g).b = add32 g.c g.d := rfl
@[simp] theorem genRound_c (g : GeneratorState) : (genRound g).c = add32 g.d (roundE g.a g.b) := rfl
@[simp] theorem genRound_d (g : GeneratorState) :
    (genRound g).d = add32 (roundE g.a g.b) (xor32 g.b (rotl32 g.c rotC)) := rfl

@[simp] theorem roundN_zero (g : GeneratorState) : roundN 0 g = g := rfl

/-- One more round, done last. -/
theorem roundN_succ (n : Nat) (g : GeneratorState) : roundN (n + 1) g = genRound (roundN n g) :=
  Function.iterate_succ_apply' genRound n g

/-- One more round, done first. -/
theorem roundN_succ_first (n : Nat) (g : GeneratorState) : roundN (n + 1) g = roundN n (genRound g) :=
  Function.iterate_succ_apply genRound n g

/-- m rounds after n rounds are m + n rounds. -/
theorem roundN_add (m n : Nat) (g : GeneratorState) : roundN (m + n) g = roundN m (roundN n g) :=
  Function.iterate_add_apply genRound m n g

/-- What INIT leaves, as rounds of the load state. The kernel runs all twenty rounds when it is asked to compare this
word with another by rfl: proofs rewrite with this lemma and the ones below instead. -/
theorem seededState_eq (seed : Word) : seededState seed = roundN initRounds (loadState seed) := by
  rw [seededState]

/-- The second of two INIT commands decides. -/
theorem seedWith_seedWith (seed seed' : Word) (s : State) : (s.seedWith seed).seedWith seed' = s.seedWith seed' := by
  rw [State.seedWith, State.seedWith, State.seedWith]

/-- A command does not touch what the host has still to present. -/
theorem withHost_advance (h : HostInput) (s : State) : (s.withHost h).advance = s.advance.withHost h := rfl

/-- A command does not touch what the host has still to present. -/
theorem withHost_seedWith (seed : Word) (h : HostInput) (s : State) :
    (s.withHost h).seedWith seed = (s.seedWith seed).withHost h := by
  rw [State.seedWith, State.seedWith, State.withHost, State.withHost]

/-- What a command can do: it always goes on, and it is one of two updates. -/
theorem exec_cases (i : Instr) (s : State) :
    (i = .next ∧ exec i s = .next s.advance) ∨ ∃ seed, i = .init seed ∧ exec i s = .next (s.seedWith seed) := by
  cases i with
  | next => exact .inl ⟨rfl, rfl⟩
  | init seed => exact .inr ⟨seed, rfl, rfl⟩

/-- `busy` says that `rc` is not 0. -/
theorem busy_iff (s : State) : busy s = true ↔ s.rc ≠ 0#5 := by simp [busy]

/-- An idle engine is not busy. -/
theorem busy_eq_false (s : State) : busy s = false ↔ s.rc = 0#5 := by simp [busy]

/-- What a clock edge can do: one of five updates, each with the condition it happens under. -/
theorem clockEdge_cases (p : PortInputs) (s : State) :
    (p.rst = true ∧ clockEdge p s = s.resetEdge) ∨
    (p.rst = false ∧ s.rc ≠ 0#5 ∧ clockEdge p s = s.mix) ∨
    (p.rst = false ∧ s.rc = 0#5 ∧ p.cmdValid = true ∧
      ∃ seed, decode (packCommand p.cmdOp p.cmdSeed) = .init seed ∧ clockEdge p s = s.load seed) ∨
    (p.rst = false ∧ s.rc = 0#5 ∧ p.cmdValid = true ∧ decode (packCommand p.cmdOp p.cmdSeed) = .next ∧
      clockEdge p s = s.advance) ∨
    (p.rst = false ∧ s.rc = 0#5 ∧ p.cmdValid = false ∧ clockEdge p s = s) := by
  obtain hr | hr := Bool.eq_false_or_eq_true p.rst
  · exact .inl ⟨hr, by simp [clockEdge, edgeCase, performCase, hr]⟩
  by_cases hb : s.rc = 0#5
  · have hb' := (busy_eq_false s).2 hb
    obtain hv | hv := Bool.eq_false_or_eq_true p.cmdValid
    · cases hd : decode (packCommand p.cmdOp p.cmdSeed) with
      | next =>
        exact .inr (.inr (.inr (.inl ⟨hr, hb, hv, rfl, by
          simp [clockEdge, edgeCase, performCase, transferred, accept, cmdReady, hr, hb', hv, hd]⟩)))
      | init seed =>
        exact .inr (.inr (.inl ⟨hr, hb, hv, seed, rfl, by
          simp [clockEdge, edgeCase, performCase, transferred, accept, cmdReady, hr, hb', hv, hd]⟩))
    · exact .inr (.inr (.inr (.inr ⟨hr, hb, hv, by
        simp [clockEdge, edgeCase, performCase, transferred, accept, hr, hb', hv]⟩)))
  · exact .inr (.inl ⟨hr, hb, by simp [clockEdge, edgeCase, performCase, hr, (busy_iff s).2 hb]⟩)

/-- A command is transferred at an edge exactly when the host presents it to a ready engine. -/
theorem transferred_eq_some (p : PortInputs) (s : State) (i : Instr) :
    transferred p s = some i ↔
      p.cmdValid = true ∧ s.rc = 0#5 ∧ p.rst = false ∧ decode (packCommand p.cmdOp p.cmdSeed) = i := by
  simp [transferred, accept, cmdReady, busy_eq_false, and_assoc]

/-- A clock edge does not touch what the host has still to present. -/
theorem withHost_clockEdge (h : HostInput) (p : PortInputs) (s : State) :
    clockEdge p (s.withHost h) = (clockEdge p s).withHost h := by
  have hc : edgeCase p (s.withHost h) = edgeCase p s := rfl
  unfold clockEdge
  rw [hc]
  cases edgeCase p s <;> rfl

/-- What a step can do: perform the next command of a script on an idle engine, or one clock edge. -/
theorem step_cases (s : State) :
    (∃ w ws, s.host = .script (w :: ws) ∧ s.rc = 0#5 ∧ step s = exec (decode w) (s.withHost (.script ws))) ∨
    (∃ ws, s.host = .script ws ∧ (ws = [] ∨ s.rc ≠ 0#5) ∧ step s = .next (clockEdge idlePorts s)) ∨
    (∃ p ps, s.host = .edges (p :: ps) ∧ step s = .next (clockEdge p (s.withHost (.edges ps)))) ∨
    (s.host = .edges [] ∧ step s = .next (clockEdge idlePorts s)) := by
  cases hh : s.host with
  | script ws =>
    cases ws with
    | nil => exact .inr (.inl ⟨[], rfl, .inl rfl, by simp [step, fetch, hh]⟩)
    | cons w ws =>
      by_cases hb : s.rc = 0#5
      · exact .inl ⟨w, ws, rfl, hb, by simp [step, fetch, hh, (busy_eq_false s).2 hb]⟩
      · exact .inr (.inl ⟨w :: ws, rfl, .inr hb, by simp [step, fetch, hh, (busy_iff s).2 hb]⟩)
  | edges ps =>
    cases ps with
    | nil => exact .inr (.inr (.inr ⟨rfl, by simp [step, fetch, hh]⟩))
    | cons p ps => exact .inr (.inr (.inl ⟨p, ps, rfl, by simp [step, fetch, hh]⟩))

/-- A list of edges has an observation exactly when no edge resets and the run is over, and it is then that of the words
and the end state. -/
theorem observeEdges_eq_some (ps : List PortInputs) (s : State) (o : Observation) :
    observeEdges ps s = some o ↔
      (∀ p ∈ ps, p.rst = false) ∧ (runEdges ps s).rc = 0#5 ∧ o = observation (edgeWords ps s) (runEdges ps s) := by
  unfold observeEdges
  split
  · next h =>
    simp only [Bool.or_eq_true, List.any_eq_true, busy_iff] at h
    refine ⟨fun h' => (Option.some_ne_none o h'.symm).elim, fun h' => ?_⟩
    obtain ⟨p, hp, hr⟩ | hb := h
    · exact absurd (h'.1 p hp) (by simp [hr])
    · exact absurd h'.2.1 hb
  · next h =>
    simp only [Bool.not_eq_true, Bool.or_eq_false_iff, List.any_eq_false, busy_eq_false] at h
    exact ⟨fun h' => ⟨h.1, h.2, (Option.some.inj h').symm⟩, fun h' => congrArg some h'.2.2.symm⟩

/-- A script whose first command is NEXT. -/
theorem runScript_next (is : List Instr) (s t : State) (ws : List Word)
    (h : runScript is s.advance = .next (ws, t)) :
    runScript (.next :: is) s = .next ((genRound s.gen).d :: ws, t) := by
  simp [runScript, exec, execNext, h, offered]

/-- A script whose first command is INIT. -/
theorem runScript_init (seed : Word) (is : List Instr) (s t : State) (ws : List Word)
    (h : runScript is (s.seedWith seed) = .next (ws, t)) :
    runScript (.init seed :: is) s = .next (ws, t) := by
  simp [runScript, exec, execInit, h, offered]

end Sys2Proof.Machine
end

