-- ==== Sys2Proof/Laws/PerInstr.lean ====
section
/-! SUPPORT. Facts of every instruction as syntax, one lemma per constructor. -/

namespace Sys2Proof.Laws

/-- The word an instruction is written as belongs to its own row of the opcode map and to no other (30_encoding.md
R54). -/
def RowMatch.Statement (i : Instr) : Prop :=
  matchesRow (rowOf i) (encode i) = true ∧ ∀ r ∈ [rowNext, rowInit], matchesRow r (encode i) = true → r = rowOf i

theorem RowMatch.next : RowMatch.Statement .next := by
  unfold RowMatch.Statement
  decide

theorem RowMatch.init (seed : Word) : RowMatch.Statement (.init seed) := by
  have h : encode (.init seed) &&& 0x100000000#33 = 0x100000000#33 := by
    apply BitVec.eq_of_getLsbD_eq
    intro i hi
    rw [BitVec.getLsbD_and, encode, packCommand_getLsbD, show (0x100000000#33) = BitVec.twoPow 33 32 from rfl,
      BitVec.getLsbD_twoPow]
    obtain rfl | h32 := eq_or_ne i 32
    · rfl
    · simp [h32.symm]
  refine ⟨by simp [rowOf, matchesRow, rowInit, h], ?_⟩
  intro r hr hm
  rcases List.mem_pair.1 hr with rfl | rfl
  · simp [matchesRow, rowNext, h] at hm
  · rfl

end Sys2Proof.Laws
end

