-- ==== Sys2Proof/Tests/Slice0.lean ====
section
/-! SUPPORT. Small tests. Every expected value is from 95_test_vectors.md or from an example of a rule; the vector or
rule is named at each. The theorems named witness_… show, for each statement with hypotheses, a concrete case that meets
all of them together. -/

namespace Sys2Proof.Tests

open Sys2Proof.Machine

/-- A state with these words and control state, `draws` = 1. -/
def st (g : GeneratorState) (seeded ov : Bool) (rc : BitVec 5) (host : HostInput) : State := ⟨g, seeded, ov, rc, 1, host⟩

/-- The small words of vector V-R9. -/
def g1234 : GeneratorState := ⟨0x00000001#32, 0x00000002#32, 0x00000003#32, 0x00000004#32⟩

/-- An idle, fresh engine with the words of V-R9 and nothing presented. -/
def idle : State := st g1234 false false 0#5 (.script [])

/-- An engine with an INIT in progress and `k` discard rounds to come. -/
def mixing (k : BitVec 5) (host : HostInput) : State := st (roundN (20 - k.toNat) (loadState 0#32)) false false k host

/-- What a step answered, if it answered a next state. -/
def got {φ ρ : Type} : Host.Outcome State φ ρ → Option State
  | .next s => some s
  | _ => none

/-- The ports of a host that holds `rst` and presents nothing. -/
def resetPorts : PortInputs := { idlePorts with rst := true }

/-! ### Well-formedness: each check refuses an ill-formed term -/

/-- A number of 34 bits is no command word (20_memory.md R33). -/
theorem test_commandWord_refused : commandWordOk 0x200000000 = false ∧ commandWordOk 0x1FFFFFFFF = true := by decide

/-- The amounts 0 and 32 are refused, 1 and 31 are not (40_round.md R75). -/
theorem test_rotAmount_refused :
    rotAmountOk 0 = false ∧ rotAmountOk 32 = false ∧ rotAmountOk 1 = true ∧ rotAmountOk 31 = true := by decide

/-- `init 0x100000000` is out of range (95_test_vectors.md section 7). -/
theorem test_imm32_refused : imm32Ok 0x100000000 = false ∧ imm32Ok 0xFFFFFFFF = true := by decide

/-- Both commands are well formed, with seed 0 too (30_encoding.md R55). -/
theorem test_instr_wellFormed : Instr.wellFormed .next = true ∧ Instr.wellFormed (.init 0#32) = true := by decide

/-! ### Decoding: words written out from the encoding of format C -/

/-- Opcode bit 0, then thirty-two bits of any value: NEXT (30_encoding.md R53; V-D1, V-D2). -/
theorem test_decode_next : decode 0b000000000000000000000000000000000#33 = .next ∧
    decode 0b011011110101011011011111011101111#33 = .next := by decide

/-- Opcode bit 1, then the thirty-two bits of 0xF1EA5EED: INIT (30_encoding.md R53; V-D6). -/
theorem test_decode_init : decode 0b111110001111010100101111011101101#33 = .init 0xF1EA5EED#32 := by decide

/-- The encoder writes the words of 30_encoding.md R60. -/
theorem test_encode : encode .next = 0x000000000#33 ∧ encode (.init 0xFFFFFFFF#32) = 0x1FFFFFFFF#33 := by decide

/-- The host's entry to the decoder, and its refusal of a number with a bit above CW[32]. -/
theorem test_decodeTableWord : decodeTableWord 40 0x100000000 = some (.init 0#32) ∧
    decodeTableWord 40 0x000000000 = some .next ∧ decodeTableWord 40 0x200000000 = none ∧
    decodeRaw 0x200000000 = .error .notACommandWord := by decide

/-! ### Primitives -/

/-- V-A1 to V-A6. -/
theorem test_add32 : add32 0xFFFFFFFF#32 1#32 = 0#32 ∧ add32 0xFFFFFFFF#32 0xFFFFFFFF#32 = 0xFFFFFFFE#32 ∧
    add32 0x80000000#32 0x80000000#32 = 0#32 ∧ add32 0x7FFFFFFF#32 1#32 = 0x80000000#32 ∧
    add32 0x12345678#32 0x9ABCDEF0#32 = 0xACF13568#32 := by decide

/-- V-A7 to V-A12. -/
theorem test_sub32 : sub32 0#32 1#32 = 0xFFFFFFFF#32 ∧ sub32 0#32 0xF8000000#32 = 0x08000000#32 ∧
    sub32 0xF1EA5EED#32 0xFFFFFFFF#32 = 0xF1EA5EEE#32 ∧ sub32 0x12345678#32 0x84D5E6F7#32 = 0x8D5E6F81#32 ∧
    sub32 0x80000000#32 0x04000000#32 = 0x7C000000#32 := by decide

/-- V-A14, V-S1, V-S2, V-S3 (17 = `rotC`, 27 = `rotB`, 5 and 15 their complements), V-S4. -/
theorem test_xor_shifts : xor32 0x9ABCDEF0#32 0x97521FDB#32 = 0x0DEEC12B#32 ∧
    shl32 0x80000001#32 rotB = 0x08000000#32 ∧ shr32 0x80000001#32 (coAmount rotB) = 0x04000000#32 ∧
    shl32 0xFFFFFFFF#32 rotC = 0xFFFE0000#32 ∧ shr32 0xFFFFFFFF#32 (coAmount rotC) = 0x0001FFFF#32 := by decide

/-- V-L1, V-L3, V-L9, V-L11, V-L13, V-L15, V-L18. -/
theorem test_rotl27 : rotl32 0x00000001#32 rotB = 0x08000000#32 ∧ rotl32 0x80000000#32 rotB = 0x04000000#32 ∧
    rotl32 0x00000020#32 rotB = 0x00000001#32 ∧ rotl32 0x12345678#32 rotB = 0xC091A2B3#32 ∧
    rotl32 0xF1EA5EED#32 rotB = 0x6F8F52F7#32 ∧ rotl32 0xDEADBEEF#32 rotB = 0x7EF56DF7#32 ∧
    rotl32 0xFFFF0000#32 rotB = 0x07FFF800#32 := by decide

/-- V-L2, V-L4, V-L10, V-L12, V-L14, V-L16, V-L17. -/
theorem test_rotl17 : rotl32 0x00000001#32 rotC = 0x00020000#32 ∧ rotl32 0x80000000#32 rotC = 0x00010000#32 ∧
    rotl32 0x00008000#32 rotC = 0x00000001#32 ∧ rotl32 0x12345678#32 rotC = 0xACF02468#32 ∧
    rotl32 0xF1EA5EED#32 rotC = 0xBDDBE3D4#32 ∧ rotl32 0xDEADBEEF#32 rotC = 0x7DDFBD5B#32 ∧
    rotl32 0x0000FFFF#32 rotC = 0xFFFE0001#32 := by decide

/-! ### The round -/

/-- V-R2 to V-R6: each word alone, then all ones. -/
theorem test_round_words : genRound ⟨1#32, 0#32, 0#32, 0#32⟩ = ⟨0#32, 0#32, 1#32, 1#32⟩ ∧
    genRound ⟨0#32, 1#32, 0#32, 0#32⟩ = ⟨1#32, 0#32, 0xF8000000#32, 0xF8000001#32⟩ ∧
    genRound ⟨0#32, 0#32, 1#32, 0#32⟩ = ⟨0x00020000#32, 1#32, 0#32, 0x00020000#32⟩ ∧
    genRound ⟨0#32, 0#32, 0#32, 1#32⟩ = ⟨0#32, 1#32, 1#32, 0#32⟩ ∧
    genRound ⟨0xFFFFFFFF#32, 0xFFFFFFFF#32, 0xFFFFFFFF#32, 0xFFFFFFFF#32⟩ =
      ⟨0#32, 0xFFFFFFFE#32, 0xFFFFFFFF#32, 0#32⟩ := by decide

/-- V-R10 to V-R12, and the inverse of V-R12. -/
theorem test_round_general : genRound ⟨0#32, 0x20#32, 0#32, 0#32⟩ = ⟨0x20#32, 0#32, 0xFFFFFFFF#32, 0x1F#32⟩ ∧
    genRound ⟨0x80000000#32, 0x80000000#32, 0x80000000#32, 0x80000000#32⟩ =
      ⟨0x80010000#32, 0#32, 0xFC000000#32, 0xFC010000#32⟩ ∧
    genRound ⟨0x12345678#32, 0x9ABCDEF0#32, 0x0FEDCBA9#32, 0x87654321#32⟩ =
      ⟨0x0DEEC12B#32, 0x97530ECA#32, 0x14C3B2A2#32, 0x9B4D30AC#32⟩ ∧
    invRound ⟨0x0DEEC12B#32, 0x97530ECA#32, 0x14C3B2A2#32, 0x9B4D30AC#32⟩ =
      ⟨0x12345678#32, 0x9ABCDEF0#32, 0x0FEDCBA9#32, 0x87654321#32⟩ := by decide

/-! ### Commands, one step each -/

/-- V-N2: a NEXT with a non-zero ignored field on an unseeded engine, through a step. -/
theorem test_next_unseeded : got (step (idle.withFetchWord 40 0x0DEADBEEF)) =
    some (st ⟨0x00060002#32, 0x00000007#32, 0xF0000005#32, 0xF0060003#32⟩ false true 0#5 (.script [])) := by decide

/-- V-N5: the first NEXT after `init 0`; the old word is gone and `seeded` stays 1. -/
theorem test_next_seeded :
    got (exec .next (st ⟨0x1B517AA6#32, 0x0D3D55A3#32, 0x44D68D47#32, 0x7A484BC9#32⟩ true false 0#5 (.script []))) =
      some (st ⟨0x17B3DC0E#32, 0xBF1ED910#32, 0x7D2FDBC2#32, 0x1A9B6C07#32⟩ true true 0#5 (.script [])) := by decide

/-- V-I1: `init 0`, through a step from an engine whose word is on offer; the word is withdrawn. -/
theorem test_init_zero : got (step ((st g1234 true true 0#5 (.script [])).withFetchWord 40 0x100000000)) =
    some (st ⟨0x1B517AA6#32, 0x0D3D55A3#32, 0x44D68D47#32, 0x7A484BC9#32⟩ true false 0#5 (.script [])) := by decide

/-- V-I2: `init 0xFFFFFFFF`, from the state after reset. -/
theorem test_init_ones :
    (got (step (State.reset.withFetchWord 40 0x1FFFFFFFF))).map (fun s => (s.gen, s.seeded, s.ov)) =
      some (⟨0x411CEFF6#32, 0xC300CC30#32, 0xC27C6051#32, 0x9EE817E5#32⟩, true, false) := by decide

/-! ### Clock edges -/

/-- V-T1 edge 2, and V-T3 edge 25 in its control bits: LOAD withdraws the word on offer and drops `seeded`. -/
theorem test_edge_load : clockEdge (presentPorts 0x100000000#33) (st g1234 true true 0#5 (.edges [])) =
    st ⟨0xF1EA5EED#32, 0#32, 0#32, 0#32⟩ false false 20#5 (.edges []) := by decide

/-- V-T1 edge 3: a MIX while a NEXT is presented, which is ignored. -/
theorem test_edge_mix : clockEdge (presentPorts 0x000000000#33)
    (st ⟨0xF1EA5EED#32, 0#32, 0#32, 0#32⟩ false false 20#5 (.edges [])) =
      st ⟨0#32, 0#32, 0xF1EA5EED#32, 0xF1EA5EED#32⟩ false false 19#5 (.edges []) := by decide

/-- V-T1 edge 22: the twentieth MIX raises `seeded`. -/
theorem test_edge_last_mix : clockEdge idlePorts
    (st ⟨0x48444AC3#32, 0x29AF341D#32, 0x275D997F#32, 0xE5DFBC24#32⟩ false false 1#5 (.edges [])) =
      st ⟨0x1B517AA6#32, 0x0D3D55A3#32, 0x44D68D47#32, 0x7A484BC9#32⟩ true false 0#5 (.edges []) := by decide

/-- V-T2 edge 5: RESET has priority over MIX and over the presented command. -/
theorem test_edge_reset : (fun s : State => (s.rc, s.seeded, s.ov))
    (clockEdge { presentPorts 0x000000000#33 with rst := true } (mixing 17#5 (.edges []))) = (0#5, false, false) := by
  decide

/-- 70_reset_and_hazards.md R163: a run with a second reset is two runs, and has no observation (log 16); without it, V-R9
gives the observation. -/
theorem test_observe_second_reset :
    observeEdges [presentPorts 0#33, resetPorts, presentPorts 0#33] idle = none ∧
    observeEdges [presentPorts 0#33] idle =
      some ⟨[0xF0060003#32], ⟨0x00060002#32, 0x00000007#32, 0xF0000005#32, 0xF0060003#32⟩, false, true⟩ := by decide

/-! ### Scripts -/

/-- 95_test_vectors.md section 7: case of the mnemonic, spelling of the seed, a comment, a blank line, `next x3`,
`next x0`. -/
theorem test_script_words :
    assembleScript "INIT 0xffffffff\n\n init 4294967295 ; seed\nnext x3\nnext x0\nnext".toList =
      some [0x1FFFFFFFF#33, 0x1FFFFFFFF#33, 0#33, 0#33, 0#33, 0#33] := by decide

/-- 95_test_vectors.md section 7: syntax errors of the script. -/
theorem test_script_errors : readScript "init 0x100000000".toList = none ∧ readScript "init -1".toList = none ∧
    readScript "init".toList = none ∧ readScript "init 0x".toList = none ∧ readScript "next 3".toList = none := by decide

/-- The listing of program P1's first two lines (30_encoding.md R62). -/
theorem test_listing : listing [.init 0#32, .next] =
    ["0  0x1_00000000  init 0x00000000".toList, "1  0x0_00000000  next".toList] := by decide

/-! ### Witnesses: a concrete case for the hypotheses of each statement -/

theorem witness_EncodeDecodeAgree : (0x100000000#33).getLsbD 32 = true ∧ (0x0FFFFFFFF#33).getLsbD 32 = false := by decide

theorem witness_EveryWordIsExactlyOneCommand :
    matchesRow rowNext 0x0FFFFFFFF#33 = true ∧ matchesRow rowInit 0x100000000#33 = true := by decide

theorem witness_NextIgnoresItsField : idlePorts.cmdOp = 0#1 := by decide

theorem witness_ZeroStateIsFixed :
    (st ⟨0#32, 0#32, 0#32, 0#32⟩ false false 0#5 (.script [])).gen = ⟨0#32, 0#32, 0#32, 0#32⟩ := by decide

theorem witness_SeededIsNeverZero : ∃ ws t, runScript [.next]
    (st ⟨0#32, 0#32, 0#32, 0#32⟩ false false 0#5 (.script [])) = .next (ws, t) ∧ t.gen = ⟨0#32, 0#32, 0#32, 0#32⟩ :=
  ⟨_, _, rfl, by decide⟩

theorem witness_NextAdvancesOneRound :
    idle.gen = ⟨0x00000001#32, 0x00000002#32, 0x00000003#32, 0x00000004#32⟩ := by decide

theorem witness_NextBeforeInitRuns : let s := st g1234 false false 0#5 (.script [packCommand 0#1 7#32])
    s.seeded = false ∧ s.rc = 0#5 ∧ s.host = .script (packCommand 0#1 7#32 :: []) := by decide

theorem witness_NextCornerCases :
    (st ⟨0#32, 0#32, 0#32, 0#32⟩ false false 0#5 (.script [])).gen = ⟨0#32, 0#32, 0#32, 0#32⟩ ∧
    (st ⟨0xFFFFFFFF#32, 0xFFFFFFFF#32, 0xFFFFFFFF#32, 0xFFFFFFFF#32⟩ false false 0#5 (.script [])).gen =
      ⟨0xFFFFFFFF#32, 0xFFFFFFFF#32, 0xFFFFFFFF#32, 0xFFFFFFFF#32⟩ ∧
    (st ⟨0#32, 1#32, 0#32, 0#32⟩ false false 0#5 (.script [])).gen = ⟨0#32, 1#32, 0#32, 0#32⟩ ∧
    (st ⟨5#32, 6#32, 0xFFFFFFFF#32, 0xFFFFFFFF#32⟩ false false 0#5 (.script [])).gen.c = 0xFFFFFFFF#32 ∧
    (st ⟨5#32, 6#32, 0xFFFFFFFF#32, 0xFFFFFFFF#32⟩ false false 0#5 (.script [])).gen.d = 0xFFFFFFFF#32 := by decide

theorem witness_InitIsLoadThenTwentyMix : idle.rc = 0#5 := by decide

theorem witness_DistinctSeedsDistinctStates : roundN 1 (seededState 3#32) = roundN 1 (seededState 3#32) := by rfl

theorem witness_LogicalStateTransitions : logicalState idle = .fresh ∧
    logicalState (st g1234 true false 0#5 (.script [])) = .running ∧ resetPorts.rst = true := by decide

theorem witness_StepRunsTheDecodedCommand : let s := st g1234 false false 0#5 (.script [0x100000007#33])
    s.host = .script (0x100000007#33 :: []) ∧ s.rc = 0#5 := by decide

theorem witness_StepPerformsEdgesAndWaits :
    (st g1234 false false 0#5 (.edges [resetPorts])).host = .edges (resetPorts :: []) ∧
    (mixing 1#5 (.script [0#33])).host = .script [0#33] ∧ (mixing 1#5 (.script [0#33])).rc ≠ 0#5 ∧
    idle.host = .script [] ∧ idle.rc = 0#5 ∧ (st g1234 true true 0#5 (.edges [])).host = .edges [] ∧
    (st g1234 true true 0#5 (.edges [])).rc = 0#5 ∧
    (mixing 20#5 (.edges [])).host = .edges [] ∧ (mixing 20#5 (.edges [])).rc ≠ 0#5 := by decide

theorem witness_ScriptRunsAsSteps : let s := st g1234 false false 0#5 (.script ([Instr.init 1#32, .next].map encode))
    s.rc = 0#5 ∧ s.host = .script ([Instr.init 1#32, .next].map encode) := by decide

theorem witness_EdgesRunAsSteps :
    (st g1234 false false 0#5 (.edges [resetPorts, idlePorts])).host = .edges [resetPorts, idlePorts] := by decide

theorem witness_OutputsFollowTheState : (st g1234 true true 0#5 (.script [])).ov = true ∧
    idle.ov = false ∧ (mixing 3#5 (.script [])).ov = false := by decide

/-- A case for each of the five, the MIX at both ends of `rc`. -/
theorem witness_EdgeTakesOneOfFiveCases : resetPorts.rst = true ∧
    (idlePorts.rst = false ∧ (mixing 1#5 (.edges [])).rc ≠ 0#5 ∧ (mixing 20#5 (.edges [])).rc ≠ 0#5) ∧
    (let p := presentPorts 0x100000007#33; p.rst = false ∧ idle.rc = 0#5 ∧ p.cmdValid = true ∧ p.cmdOp = 1#1) ∧
    (let p := presentPorts 0x000000007#33; p.rst = false ∧ idle.rc = 0#5 ∧ p.cmdValid = true ∧ p.cmdOp = 0#1) ∧
    (idlePorts.rst = false ∧ idle.rc = 0#5 ∧ idlePorts.cmdValid = false) := by decide

theorem witness_AcceptanceIsValidAndReady : accept (presentPorts 0#33) idle = true ∧
    accept (presentPorts 0#33) (mixing 1#5 (.edges [])) = false ∧ accept idlePorts idle = false := by decide

theorem witness_ResetFromAnyState : resetPorts.rst = true := by decide

theorem witness_EveryResetTakesAFreshDraw : resetPorts.rst = true ∧ idlePorts.rst = false := by decide

theorem witness_CommandsWaitWhileBusy : (mixing 1#5 (.edges [])).rc ≠ 0#5 ∧ (mixing 20#5 (.edges [])).rc ≠ 0#5 ∧
    idlePorts.rst = false := by decide

theorem witness_HeldNextIsManyCommands : idle.rc = 0#5 ∧ 0 < 1 := by decide

theorem witness_SeededRisesOnlyAtCompletion : (mixing 1#5 (.edges [])).seeded = false ∧ idlePorts.rst = false ∧
    (mixing 1#5 (.edges [])).rc = 1#5 ∧ idle.seeded = false := by decide

theorem witness_OutputStaysOnOffer : (st g1234 true true 0#5 (.edges [])).rc = 0#5 ∧ idlePorts.rst = false ∧
    transferred idlePorts (st g1234 true true 0#5 (.edges [])) = none := by decide

theorem witness_IdleEdgesChangeNothing :
    idle.rc = 0#5 ∧ ∀ p ∈ [idlePorts, idlePorts], p.rst = false ∧ p.cmdValid = false := by decide

/-- Edges whose `rst` stays 0. -/
theorem rstLow_replicate (n : Nat) (p : PortInputs) (h : p.rst = false) : RstLow (List.replicate n p) :=
  fun _ hq => List.eq_of_mem_replicate hq ▸ h

/-- Edges whose `rst` stays 0, checked one by one. -/
theorem rstLow_of_all (ps : List PortInputs) (h : ps.all (fun p => !p.rst) = true) : RstLow ps :=
  fun p hp => by simpa using List.all_eq_true.1 h p hp

/-- Zero and twenty edges after the accepting one. -/
theorem witness_InitTimeline : let p := presentPorts 0x100000007#33
    idle.rc = 0#5 ∧ p.rst = false ∧ p.cmdValid = true ∧ p.cmdOp = 1#1 ∧
    (RstLow (List.replicate 0 idlePorts) ∧ (List.replicate 0 idlePorts).length ≤ Config.initBusyCycles) ∧
    RstLow (List.replicate 20 idlePorts) ∧ (List.replicate 20 idlePorts).length ≤ Config.initBusyCycles :=
  ⟨by decide, by decide, by decide, by decide, ⟨rstLow_replicate _ _ rfl, by decide⟩, rstLow_replicate _ _ rfl, by decide⟩

theorem witness_NextTimeline : let p := presentPorts 0x000000007#33
    idle.rc = 0#5 ∧ p.rst = false ∧ p.cmdValid = true ∧ p.cmdOp = 0#1 := by decide

/-- An INIT in progress meets the invariant: the witness of the statements about it. -/
theorem witness_StepKeepsTheInvariant : EngineInv (mixing 17#5 (.script [0#33])) ∧
    EngineInv (st (roundN 2 (seededState 5#32)) true true 0#5 (.script [0#33])) :=
  ⟨⟨by decide, fun _ => ⟨rfl, rfl, 0#32, rfl⟩, fun h => absurd h (by decide)⟩,
    ⟨by decide, fun h => absurd rfl h, fun _ => ⟨5#32, 2, rfl⟩⟩⟩

theorem witness_BusyEndsAfterExactlyRcEdges : RstLow (List.replicate 17 idlePorts) ∧
    (List.replicate 17 idlePorts).length = (mixing 17#5 (.edges [])).rc.toNat ∧ 0 < (mixing 17#5 (.edges [])).rc.toNat ∧
    EngineInv (mixing 17#5 (.script [0#33])) ∧ idlePorts.rst = false :=
  ⟨rstLow_replicate _ _ rfl, by decide, by decide, witness_StepKeepsTheInvariant.1, by decide⟩

/-- An INIT presented until it is accepted, its twenty busy cycles, and a NEXT held meanwhile. -/
def initThenNext : List PortInputs := presentPorts 0x100000000#33 :: List.replicate 21 (presentPorts 0#33)

/-- The same commands with idle cycles between them. -/
def initIdleNext : List PortInputs :=
  idlePorts :: presentPorts 0x100000000#33 :: (List.replicate 22 idlePorts ++ [presentPorts 0#33])

theorem witness_CycleLevelRefinesCommandLevel :
    idle.rc = 0#5 ∧ RstLow initThenNext ∧ (runEdges initThenNext idle).rc = 0#5 :=
  ⟨by decide, rstLow_of_all _ (by decide), by decide +kernel⟩

theorem witness_WaitingIsNotObserved : idle.rc = 0#5 ∧ RstLow initThenNext ∧ RstLow initIdleNext ∧
    (runEdges initThenNext idle).rc = 0#5 ∧ (runEdges initIdleNext idle).rc = 0#5 ∧
    acceptedCommands initThenNext idle = acceptedCommands initIdleNext idle :=
  ⟨by decide, rstLow_of_all _ (by decide), rstLow_of_all _ (by decide), by decide +kernel, by decide +kernel, by decide +kernel⟩

end Sys2Proof.Tests
end

section
/-! The facts about outputs, logical state, commands and clock edges that the statements of 10_state.md need. -/

namespace Sys2Proof.Machine

@[simp] theorem exec_next (s : State) : exec .next s = .next s.advance := rfl

@[simp] theorem exec_init (seed : Word) (s : State) : exec (.init seed) s = .next (s.seedWith seed) := rfl

/-! ### The logical state and the outputs -/

@[simp] theorem logicalState_eq_fresh (s : State) : logicalState s = .fresh ↔ s.seeded = false := by
  cases h : s.seeded <;> simp [logicalState, h]

@[simp] theorem logicalState_eq_running (s : State) : logicalState s = .running ↔ s.seeded = true := by
  cases h : s.seeded <;> simp [logicalState, h]

/-- NEXT is the self-loop of both logical states (10_state.md R25). -/
theorem logicalState_advance (s : State) : logicalState s.advance = logicalState s := rfl

theorem offered_of_ov {s : State} (h : s.ov = true) : offered s = some s.gen.d := by simp [offered, h]

theorem offered_of_not_ov {s : State} (h : s.ov = false) : offered s = none := by simp [offered, h]

@[simp] theorem outputs_cmdReady (rst : Bool) (obs : Nat) (s : State) :
    (outputs rst obs s).cmdReady = cmdReady rst s := rfl

@[simp] theorem outputs_busy (rst : Bool) (obs : Nat) (s : State) : (outputs rst obs s).busy = busy s := rfl

theorem cmdReady_iff (rst : Bool) (s : State) : cmdReady rst s = true ↔ s.rc = 0#5 ∧ rst = false := by
  simp [cmdReady, busy_eq_false]

/-- The state after reset is one of the launch states (10_state.md R22; 70_reset_and_hazards.md R163). -/
theorem reset_eq_launch : State.reset = State.launch (drawAbcd 0) 1 (.script []) := rfl

/-- A reset edge leaves the launch state of the draw it takes (70_reset_and_hazards.md R140, R141). -/
theorem resetEdge_eq_launch (s : State) : s.resetEdge = State.launch (drawAbcd s.draws) (s.draws + 1) s.host := rfl

/-! ### Clock edges and the handshake -/

theorem transferred_eq_none (p : PortInputs) (s : State) :
    transferred p s = none ↔ ¬ (p.cmdValid = true ∧ s.rc = 0#5 ∧ p.rst = false) := by
  simp only [Option.eq_none_iff_forall_ne_some, ne_eq, transferred_eq_some]
  exact ⟨fun h ⟨hv, hrc, hrst⟩ => h _ ⟨hv, hrc, hrst, rfl⟩, fun h _ ⟨hv, hrc, hrst, _⟩ => h ⟨hv, hrc, hrst⟩⟩

/-- `clockEdge_cases` in terms of the command that the edge transfers: only LOAD and STEP transfer one
(70_reset_and_hazards.md R152, R153). -/
theorem clockEdge_transferred_cases (p : PortInputs) (s : State) :
    (p.rst = true ∧ transferred p s = none ∧ clockEdge p s = s.resetEdge) ∨
    (p.rst = false ∧ s.rc ≠ 0#5 ∧ transferred p s = none ∧ clockEdge p s = s.mix) ∨
    (p.rst = false ∧ s.rc = 0#5 ∧ ∃ seed, transferred p s = some (.init seed) ∧ clockEdge p s = s.load seed) ∨
    (p.rst = false ∧ s.rc = 0#5 ∧ transferred p s = some .next ∧ clockEdge p s = s.advance) ∨
    (p.rst = false ∧ s.rc = 0#5 ∧ transferred p s = none ∧ clockEdge p s = s) := by
  obtain ⟨hrst, he⟩ | ⟨hrst, hrc, he⟩ | ⟨hrst, hrc, hv, seed, hd, he⟩ | ⟨hrst, hrc, hv, hd, he⟩ | ⟨hrst, hrc, hv, he⟩ :=
    clockEdge_cases p s
  · exact .inl ⟨hrst, (transferred_eq_none p s).2 (by simp [hrst]), he⟩
  · exact .inr (.inl ⟨hrst, hrc, (transferred_eq_none p s).2 (by simp [hrc]), he⟩)
  · exact .inr (.inr (.inl ⟨hrst, hrc, seed, (transferred_eq_some p s _).2 ⟨hv, hrc, hrst, hd⟩, he⟩))
  · exact .inr (.inr (.inr (.inl ⟨hrst, hrc, (transferred_eq_some p s _).2 ⟨hv, hrc, hrst, hd⟩, he⟩)))
  · exact .inr (.inr (.inr (.inr ⟨hrst, hrc, (transferred_eq_none p s).2 (by simp [hv]), he⟩)))

/-- Reset has priority over every other case (60_exceptions.md R124). -/
theorem clockEdge_of_rst {p : PortInputs} {s : State} (hrst : p.rst = true) : clockEdge p s = s.resetEdge := by
  obtain ⟨-, -, he⟩ | ⟨hlow, -⟩ | ⟨hlow, -⟩ | ⟨hlow, -⟩ | ⟨hlow, -⟩ := clockEdge_transferred_cases p s
  · exact he
  all_goals simp [hrst] at hlow

/-- An idle engine that accepts nothing and is not reset keeps its whole state (70_reset_and_hazards.md R153 case
HOLD). -/
theorem clockEdge_eq_self {p : PortInputs} {s : State} (hrc : s.rc = 0#5) (hrst : p.rst = false)
    (ht : transferred p s = none) : clockEdge p s = s := by
  obtain ⟨hrst', -⟩ | ⟨-, hrc', -⟩ | ⟨-, -, seed, ht', -⟩ | ⟨-, -, ht', -⟩ | ⟨-, -, -, he⟩ :=
    clockEdge_transferred_cases p s
  · simp [hrst] at hrst'
  · exact absurd hrc hrc'
  · simp [ht] at ht'
  · simp [ht] at ht'
  · exact he

/-- `ov` after an edge: NEXT raises it, INIT and reset clear it, MIX and HOLD leave it (10_state.md R17). -/
theorem clockEdge_ov_iff (p : PortInputs) (s : State) :
    (clockEdge p s).ov = true ↔
      p.rst = false ∧ (transferred p s = some .next ∨ (s.ov = true ∧ transferred p s = none)) := by
  obtain ⟨hrst, ht, he⟩ | ⟨hrst, -, ht, he⟩ | ⟨hrst, -, seed, ht, he⟩ | ⟨hrst, -, ht, he⟩ | ⟨hrst, -, ht, he⟩ :=
    clockEdge_transferred_cases p s
  · simp [he, hrst]
  · simp [he, hrst, ht]
  · simp [he, ht]
  · simp [he, hrst, ht]
  · simp [he, hrst, ht]

end Sys2Proof.Machine
end

section
/-! The invariant of the engine (10_state.md R16, R18; 70_reset_and_hazards.md R155, R157): what it says of an idle and
of a busy engine, and that every operation on the state keeps it. -/

namespace Sys2Proof.Machine

/-! ### The two streams of state words, round by round -/

/-- A completed INIT, before any NEXT. -/
theorem isSeededStream_seededState (seed : Word) : IsSeededStream (seededState seed) :=
  ⟨seed, 0, (roundN_zero _).symm⟩

/-- One more NEXT after a completed INIT. -/
theorem IsSeededStream.genRound {g : GeneratorState} (h : IsSeededStream g) : IsSeededStream (genRound g) := by
  obtain ⟨seed, n, rfl⟩ := h
  exact ⟨seed, n + 1, (roundN_succ n _).symm⟩

/-- LOAD begins the twenty discard rounds. -/
theorem isMixing_loadState (seed : Word) : IsMixing initRounds (loadState seed) :=
  ⟨seed, by rw [Nat.sub_self, roundN_zero]⟩

/-- A discard round leaves one fewer to come. -/
theorem IsMixing.genRound {k : Nat} {g : GeneratorState} (hk : k + 1 ≤ initRounds) (h : IsMixing (k + 1) g) :
    IsMixing k (genRound g) := by
  obtain ⟨seed, rfl⟩ := h
  have hrounds : initRounds - k = initRounds - (k + 1) + 1 := by omega
  exact ⟨seed, by rw [hrounds, roundN_succ]⟩

/-- With no round to come the INIT is completed. -/
theorem IsMixing.isSeededStream {g : GeneratorState} (h : IsMixing 0 g) : IsSeededStream g := by
  obtain ⟨seed, rfl⟩ := h
  rw [Nat.sub_zero, ← seededState_eq]
  exact isSeededStream_seededState seed

/-! ### The invariant of an idle and of a busy engine -/

theorem engineInv_iff_of_idle {s : State} (hrc : s.rc = 0#5) :
    EngineInv s ↔ (s.seeded = true → IsSeededStream s.gen) := by
  simp [EngineInv, hrc]

theorem engineInv_iff_of_busy {s : State} (hrc : s.rc ≠ 0#5) :
    EngineInv s ↔ s.rc.toNat ≤ initRounds ∧ s.seeded = false ∧ s.ov = false ∧ IsMixing s.rc.toNat s.gen := by
  constructor
  · rintro ⟨hle, hbusy, -⟩
    exact ⟨hle, hbusy hrc⟩
  · rintro ⟨hle, hseeded, hov, hmix⟩
    exact ⟨hle, fun _ => ⟨hseeded, hov, hmix⟩, by simp [hseeded]⟩

/-- The invariant does not speak of what the host has still to present. -/
theorem engineInv_withHost (h : HostInput) (s : State) : EngineInv (s.withHost h) ↔ EngineInv s := Iff.rfl

/-! ### Every operation keeps it -/

/-- Every launch state meets the invariant, whatever the draw (10_state.md R22). -/
theorem engineInv_launch (abcd : GeneratorState) (draws : Nat) (host : HostInput) :
    EngineInv (State.launch abcd draws host) :=
  (engineInv_iff_of_idle (State.launch_rc abcd draws host)).2 (by simp)

theorem engineInv_resetEdge (s : State) : EngineInv s.resetEdge := by
  rw [resetEdge_eq_launch]
  exact engineInv_launch _ _ _

/-- LOAD puts the engine at the start of the discard rounds, from any state. -/
theorem engineInv_load (seed : Word) (s : State) : EngineInv (s.load seed) := by
  have hrc : (s.load seed).rc.toNat = initRounds := rfl
  refine (engineInv_iff_of_busy (by simp [initRounds])).2 ⟨hrc.le, rfl, rfl, ?_⟩
  rw [hrc]
  exact isMixing_loadState seed

/-- A discard round counts `rc` down, and at the twentieth the mixed words are those of a completed INIT
(70_reset_and_hazards.md R155). -/
theorem EngineInv.mix {s : State} (h : EngineInv s) (hrc : s.rc ≠ 0#5) : EngineInv s.mix := by
  obtain ⟨hle, hseeded, hov, hmix⟩ := (engineInv_iff_of_busy hrc).1 h
  have hcount : s.rc.toNat = s.mix.rc.toNat + 1 := by
    rw [State.mix_rc]
    bv_omega
  rw [hcount] at hle hmix
  have hround : IsMixing s.mix.rc.toNat s.mix.gen := hmix.genRound hle
  by_cases hlast : s.rc = 1#5
  · have hidle : s.mix.rc = 0#5 := by simp [hlast]
    rw [hidle] at hround
    exact (engineInv_iff_of_idle hidle).2 fun _ => hround.isSeededStream
  · have hbusy : s.mix.rc ≠ 0#5 := by
      rw [State.mix_rc]
      bv_omega
    exact (engineInv_iff_of_busy hbusy).2 ⟨by omega, by simp [hlast, hseeded], hov, hround⟩

/-- A round delivered by an idle engine continues the stream that `seeded` promises. -/
theorem EngineInv.advance {s : State} (h : EngineInv s) (hrc : s.rc = 0#5) : EngineInv s.advance := by
  have hidle : s.advance.rc = 0#5 := by rw [State.advance_rc, hrc]
  rw [engineInv_iff_of_idle hidle, State.advance_seeded, State.advance_gen]
  exact fun hseeded => ((engineInv_iff_of_idle hrc).1 h hseeded).genRound

/-- INIT at the command level leaves an idle engine at the start of its stream, whatever the words were. -/
theorem engineInv_seedWith (seed : Word) {s : State} (hrc : s.rc = 0#5) : EngineInv (s.seedWith seed) :=
  (engineInv_iff_of_idle (by rw [State.seedWith_rc, hrc])).2 fun _ => by
    rw [State.seedWith_gen]
    exact isSeededStream_seededState seed

/-- A command performed on an idle engine goes on and keeps the invariant. -/
theorem EngineInv.exec {s : State} (h : EngineInv s) (hrc : s.rc = 0#5) (i : Instr) :
    ∃ t, exec i s = .next t ∧ EngineInv t := by
  obtain ⟨-, he⟩ | ⟨seed, -, he⟩ := exec_cases i s
  · exact ⟨_, he, h.advance hrc⟩
  · exact ⟨_, he, engineInv_seedWith seed hrc⟩

/-- A rising edge keeps the invariant, whatever the host presents. -/
theorem EngineInv.clockEdge {s : State} (h : EngineInv s) (p : PortInputs) : EngineInv (clockEdge p s) := by
  obtain ⟨-, he⟩ | ⟨-, hrc, he⟩ | ⟨-, -, -, seed, -, he⟩ | ⟨-, hrc, -, -, he⟩ | ⟨-, -, -, he⟩ := clockEdge_cases p s
  · rw [he]
    exact engineInv_resetEdge s
  · rw [he]
    exact h.mix hrc
  · rw [he]
    exact engineInv_load seed s
  · rw [he]
    exact h.advance hrc
  · rwa [he]

end Sys2Proof.Machine
end

section
/-! The statements of the family 10_state.md. -/

namespace Sys2Proof.Proofs

open Sys2Proof.Machine

/-- Settles O50: a step is a command on an idle engine or a rising edge, and both keep the invariant. -/
theorem stepKeepsTheInvariant : Obligations.StepKeepsTheInvariant := by
  intro s h
  obtain ⟨w, ws, -, hrc, he⟩ | ⟨ws, -, -, he⟩ | ⟨p, ps, -, he⟩ | ⟨-, he⟩ := step_cases s
  · rw [he]
    exact EngineInv.exec ((engineInv_withHost (.script ws) s).2 h) hrc (decode w)
  · exact ⟨_, he, h.clockEdge idlePorts⟩
  · exact ⟨_, he, ((engineInv_withHost (.edges ps) s).2 h).clockEdge p⟩
  · exact ⟨_, he, h.clockEdge idlePorts⟩

/-- Settles O43: what each case of an edge does to `ov`, and HOLD keeps the word itself. -/
theorem outputStaysOnOffer : Obligations.OutputStaysOnOffer := fun p s =>
  ⟨clockEdge_ov_iff p s, fun hrc hrst ht => by rw [clockEdge_eq_self hrc hrst ht]⟩

/-- The rows NEXT of the transition table: the logical state stays, whichever it is. -/
theorem exec_next_keeps_logicalState (s : State) :
    ∃ t, exec .next s = .next t ∧ logicalState t = logicalState s ∧
      t.gen = genRound s.gen ∧ t.ov = true ∧ offered t = some t.gen.d :=
  ⟨s.advance, exec_next s, logicalState_advance s, State.advance_gen s, State.advance_ov s,
    offered_of_ov (State.advance_ov s)⟩

/-- Settles O29, row by row: both INIT rows, NEXT from fresh, NEXT from running, reset. -/
theorem logicalStateTransitions : Obligations.LogicalStateTransitions := by
  refine ⟨fun s seed => ?_, fun s hs => ?_, fun s hs => ?_, fun s p hrst => ?_⟩
  · exact ⟨s.seedWith seed, exec_init seed s, (logicalState_eq_running _).2 (State.seedWith_seeded seed s),
      State.seedWith_gen seed s, State.seedWith_ov seed s, offered_of_not_ov (State.seedWith_ov seed s)⟩
  · rw [← hs]
    exact exec_next_keeps_logicalState s
  · rw [← hs]
    exact exec_next_keeps_logicalState s
  · rw [clockEdge_of_rst hrst]
    exact ⟨(logicalState_eq_fresh _).2 (State.resetEdge_seeded s), State.resetEdge_ov s,
      offered_of_not_ov (State.resetEdge_ov s)⟩

/-- Settles O51: the state after reset is a launch state, and every launch state is idle and fresh. -/
theorem resetMeetsTheInvariant : Obligations.ResetMeetsTheInvariant :=
  ⟨reset_eq_launch ▸ engineInv_launch _ _ _, engineInv_launch⟩

/-- Settles O52, from the fields of a launch state. -/
theorem resetLeavesFreshAndIdle : Obligations.ResetLeavesFreshAndIdle := by
  refine ⟨by simp [reset_eq_launch], fun abcd draws host obs => ?_⟩
  have hrc : (State.launch abcd draws host).rc = 0#5 := State.launch_rc abcd draws host
  rw [outputs_cmdReady, outputs_busy]
  exact ⟨(logicalState_eq_fresh _).2 (State.launch_seeded abcd draws host),
    offered_of_not_ov (State.launch_ov abcd draws host),
    (cmdReady_iff false _).2 ⟨hrc, rfl⟩, (busy_eq_false _).2 hrc, State.launch_gen abcd draws host⟩

end Sys2Proof.Proofs
end

section
/-! The facts about presented command words, steps and scripts that the statements of 20_memory.md need. -/

namespace Sys2Proof

/-- Decoding undoes encoding: the opcode that `encode` writes picks the command, and the seed is read back
(30_encoding.md R53 to R55). -/
@[simp] theorem decode_encode (i : Instr) : decode (encode i) = i := by
  cases i with
  | next => exact (decode_packCommand opNext 0#32).trans (if_neg (by decide))
  | init seed => exact (decode_packCommand opInit seed).trans (if_pos rfl)

/-- The number of a 33-bit word stands for that word (20_memory.md R33). -/
@[simp] theorem commandWord?_toNat (cw : CommandWord) : commandWord? cw.toNat = some cw := by
  have hok : commandWordOk cw.toNat = true := decide_eq_true cw.isLt
  rw [commandWord?, if_pos hok, BitVec.ofNat_toNat, BitVec.setWidth_eq]

end Sys2Proof

namespace Sys2Proof.Machine

/-! ### Replacing what the host has still to present -/

@[simp] theorem withHost_withHost (h h' : HostInput) (s : State) : (s.withHost h).withHost h' = s.withHost h' := rfl

theorem withHost_eq_self {s : State} {h : HostInput} (hs : s.host = h) : s.withHost h = s := by
  subst hs
  rfl

/-- A command goes on, leaves `rc`, and neither reads nor writes what the host has still to present. -/
theorem exec_withHost (i : Instr) (s : State) :
    ∃ t, exec i s = .next t ∧ t.rc = s.rc ∧ ∀ h, exec i (s.withHost h) = .next (t.withHost h) := by
  cases i with
  | next => exact ⟨s.advance, exec_next s, State.advance_rc s, fun h => by rw [exec_next, withHost_advance]⟩
  | init seed =>
    exact ⟨s.seedWith seed, exec_init seed s, State.seedWith_rc seed s,
      fun h => by rw [exec_init, withHost_seedWith]⟩

/-! ### Steps that perform a command -/

/-- An idle engine performs the first command of the script (20_memory.md R36). -/
theorem step_of_script {s : State} {w : CommandWord} {ws : List CommandWord} (hh : s.host = .script (w :: ws))
    (hrc : s.rc = 0#5) : step s = exec (decode w) (s.withHost (.script ws)) := by
  obtain ⟨w', ws', hh', -, he⟩ | ⟨ws', hh', hwait, -⟩ | ⟨p, ps, hh', -⟩ | ⟨hh', -⟩ := step_cases s
  · obtain ⟨rfl, rfl⟩ : w = w' ∧ ws = ws' := by simpa [hh] using hh'
    exact he
  · obtain rfl : w :: ws = ws' := by simpa [hh] using hh'
    simp [hrc] at hwait
  · simp [hh] at hh'
  · simp [hh] at hh'

/-- Forty bits hold every command word, so the host's entry presents it (logs 11, 13). -/
theorem withFetchWord_toNat (cw : CommandWord) (s : State) : s.withFetchWord 40 cw.toNat = present cw s := by
  have hfits : cw.toNat % 2 ^ 40 = cw.toNat := Nat.mod_eq_of_lt (by omega)
  rw [State.withFetchWord, presentTableWord, hfits, commandWord?_toNat]

/-- A presented word is performed by the very next step (log 13). -/
theorem step_present (cw : CommandWord) (s : State) :
    step (present cw s) = exec (decode cw) { s with rc := 0#5, host := .script s.host.commands } :=
  step_of_script (present_host cw s) (present_rc cw s)

/-! ### Runs of steps and of scripts, first command first -/

theorem core_run_succ {s t : State} (he : step s = .next t) (n : Nat) :
    Host.Core.run core (n + 1) s = Host.Core.run core n t := by
  have hcore : core.step s = .next t := he
  simp only [Host.Core.run, hcore]

theorem runScript_cons {i : Instr} {is : List Instr} {s t u : State} {ws : List Word} (he : exec i s = .next t)
    (hr : runScript is t = .next (ws, u)) : runScript (i :: is) s = .next ((offered t).toList ++ ws, u) := by
  simp [runScript, he, hr]

/-- The steps of an idle engine whose host holds a script are the commands of the script. The state `s` of the script's
own run may hold anything in `host`: commands do not touch it, so the induction goes on from the state each leaves. -/
theorem core_run_script (is : List Instr) (s : State) (hrc : s.rc = 0#5) :
    ∃ ws t, runScript is s = .next (ws, t) ∧
      Host.Core.run core is.length (s.withHost (.script (is.map encode))) = .next (t.withHost (.script [])) := by
  induction is generalizing s with
  | nil => exact ⟨[], s, rfl, rfl⟩
  | cons i is ih =>
    obtain ⟨s', he, hrc', hhost⟩ := exec_withHost i s
    obtain ⟨ws, t, hscript, hrun⟩ := ih s' (hrc'.trans hrc)
    have hstep : step (s.withHost (.script ((i :: is).map encode))) =
        .next (s'.withHost (.script (is.map encode))) := by
      rw [List.map_cons, step_of_script (State.withHost_host _ s) hrc, decode_encode, withHost_withHost, hhost]
    exact ⟨_, t, runScript_cons he hscript, (core_run_succ hstep is.length).trans hrun⟩

end Sys2Proof.Machine
end

section
/-! The statements of the family 20_memory.md. -/

namespace Sys2Proof.Proofs

open Sys2Proof.Machine

/-- Settles O33: the state holds the script already, so its steps are those of `core_run_script`. -/
theorem scriptRunsAsSteps : Obligations.ScriptRunsAsSteps := by
  intro is s hrc hhost
  obtain ⟨ws, t, hscript, hrun⟩ := core_run_script is s hrc
  rw [withHost_eq_self hhost] at hrun
  exact ⟨ws, t, hscript, hrun⟩

/-- Settles O31: the first word of a script on an idle engine, and a word the host's entry presents. -/
theorem stepRunsTheDecodedCommand : Obligations.StepRunsTheDecodedCommand := by
  refine ⟨fun s w ws hhost hrc => step_of_script hhost hrc, fun s i => ?_⟩
  rw [withFetchWord_toNat, step_present, decode_encode]

end Sys2Proof.Proofs
end

section
/-! The facts about command words and the two rows of the opcode map that the statements of 30_encoding.md need. -/

namespace Sys2Proof

/-! ### The decoder by bit 32 -/

/-- The opcode is bit 32 of the command word (30_encoding.md R53). -/
theorem opField_eq_opInit_iff (cw : CommandWord) : opField cw = opInit ↔ cw.getLsbD 32 = true := by
  rw [BitVec.getLsbD_eq_extractLsb', beq_iff_eq]
  rfl

theorem decode_of_bit_set {cw : CommandWord} (h : cw.getLsbD 32 = true) : decode cw = .init (seedField cw) :=
  if_pos ((opField_eq_opInit_iff cw).2 h)

theorem decode_of_bit_clear {cw : CommandWord} (h : cw.getLsbD 32 = false) : decode cw = .next :=
  if_neg (by rw [opField_eq_opInit_iff, h]; decide)

theorem decode_packCommand_next (seed : Word) : decode (packCommand opNext seed) = .next :=
  (decode_packCommand opNext seed).trans (if_neg (by decide))

theorem decode_packCommand_init (seed : Word) : decode (packCommand opInit seed) = .init seed :=
  (decode_packCommand opInit seed).trans (if_pos rfl)

/-- The seed is the command word modulo 2^32 (30_encoding.md R55). -/
theorem seedField_eq_ofNat (cw : CommandWord) : seedField cw = BitVec.ofNat 32 cw.toNat := by
  rw [BitVec.ofNat_toNat, BitVec.setWidth_eq_extractLsb' (by omega)]
  rfl

/-- Forty bits hold every command word, so the host's entry decodes it (log 11). -/
theorem decodeTableWord_toNat (cw : CommandWord) : decodeTableWord 40 cw.toNat = some (decode cw) := by
  have hfits : cw.toNat % 2 ^ 40 = cw.toNat := Nat.mod_eq_of_lt (by omega)
  rw [decodeTableWord, decodeRaw, hfits, commandWord?_toNat]
  rfl

/-! ### The encoder -/

/-- NEXT is written with its ignored field zero (30_encoding.md R60). -/
theorem encode_next : encode .next = 0#33 := rfl

/-- INIT with the seed of a word whose opcode is INIT is that word. -/
theorem encode_init_seedField {cw : CommandWord} (h : cw.getLsbD 32 = true) :
    encode (.init (seedField cw)) = cw := by
  rw [encode, ← (opField_eq_opInit_iff cw).2 h, packCommand_fields]

/-! ### The rows of the opcode map -/

/-- The mask of both rows keeps bit 32 alone (30_encoding.md R54). -/
theorem and_opcodeMask (cw : CommandWord) :
    cw &&& 0x100000000#33 = if cw.getLsbD 32 = true then 0x100000000#33 else 0#33 :=
  BitVec.and_twoPow cw 32

theorem matchesRow_rowInit (cw : CommandWord) : matchesRow rowInit cw = cw.getLsbD 32 := by
  rw [matchesRow, rowInit, and_opcodeMask]
  cases cw.getLsbD 32 <;> rfl

theorem matchesRow_rowNext (cw : CommandWord) : matchesRow rowNext cw = !cw.getLsbD 32 := by
  rw [matchesRow, rowNext, and_opcodeMask]
  cases cw.getLsbD 32 <;> rfl

theorem matchesRow_iff (r : OpcodeRow) (cw : CommandWord) : matchesRow r cw = true ↔ cw &&& r.mask = r.matchBits :=
  beq_iff_eq

end Sys2Proof

namespace Sys2Proof.Machine

/-- An edge reads `cmd_op` and `cmd_seed` only through the command they encode (70_reset_and_hazards.md R152, R153). -/
theorem clockEdge_congr {p q : PortInputs} (s : State) (hrst : p.rst = q.rst) (hvalid : p.cmdValid = q.cmdValid)
    (hcmd : decode (packCommand p.cmdOp p.cmdSeed) = decode (packCommand q.cmdOp q.cmdSeed)) :
    clockEdge p s = clockEdge q s := by
  have ht : transferred p s = transferred q s := by
    rw [transferred, accept, hrst, hvalid, hcmd]
    rfl
  simp only [clockEdge, edgeCase, hrst, ht]

end Sys2Proof.Machine
end

section
/-! The statements of the family 30_encoding.md about the encoder and the decoder. -/

namespace Sys2Proof.Proofs

open Sys2Proof.Machine

/-- Settles O1: the decoder undoes the encoder, and the host's entry decodes every 33-bit word. -/
theorem decodeEncodeAgree : Obligations.DecodeEncodeAgree := by
  intro i
  refine ⟨?_, decode_encode i, ?_⟩
  · cases i with
    | next => rfl
    | init seed => rfl
  · rw [decodeTableWord_toNat, decode_encode]

/-- Settles O2, by the opcode bit. -/
theorem encodeDecodeAgree : Obligations.EncodeDecodeAgree := fun cw =>
  ⟨fun h => by rw [decode_of_bit_set h, encode_init_seedField h],
    fun h => by rw [decode_of_bit_clear h, encode_next]⟩

/-- Settles O3: the row INIT matches exactly the words with bit 32 set, the row NEXT exactly the others. -/
theorem everyWordIsExactlyOneCommand : Obligations.EveryWordIsExactlyOneCommand := by
  intro cw
  refine ⟨matchesRow_iff rowNext cw, matchesRow_iff rowInit cw, ?_, fun hm => ?_, fun hm => ?_⟩
  · rw [matchesRow_rowNext, matchesRow_rowInit]
  · have hbit : cw.getLsbD 32 = false := by simpa [matchesRow_rowNext] using hm
    exact ⟨hbit, decode_of_bit_clear hbit⟩
  · have hbit : cw.getLsbD 32 = true := by rwa [matchesRow_rowInit] at hm
    exact ⟨hbit, by rw [decode_of_bit_set hbit, seedField_eq_ofNat]⟩

/-- Settles O4: the ignored field is lost at decoding, and both levels read a command word through the decoder alone. -/
theorem nextIgnoresItsField : Obligations.NextIgnoresItsField := by
  have hnext : ∀ seed, decode (packCommand 0#1 seed) = .next := decode_packCommand_next
  refine ⟨fun seed => ⟨hnext seed, decode_packCommand_init seed⟩, fun seed seed' s => ?_,
    fun p seed s hop => ?_, fun cw s => ?_⟩
  · simp only [step_present, hnext]
  · exact clockEdge_congr s rfl rfl (by simp only [hop, hnext])
  · obtain ⟨t, ht, -⟩ := exec_withHost (decode cw) { s with rc := 0#5, host := .script s.host.commands }
    exact ⟨t, (step_present cw s).trans ht⟩

end Sys2Proof.Proofs
end

section
/-! How a script's text is taken apart: its lines, the words of a line, the two spellings of a number (30_encoding.md
R60, R61). -/

namespace Sys2Proof.Machine

/-! ### Lines and words -/

theorem splitAtChars_eq_singleton {sep : Char → Bool} {l : List Char} (h : ∀ c ∈ l, sep c = false) :
    splitAtChars sep l = [l] := by
  induction l with
  | nil => rfl
  | cons c cs ih =>
    obtain ⟨hc, hcs⟩ := List.forall_mem_cons.1 h
    simp [splitAtChars, hc, ih hcs]

theorem splitAtChars_append_cons {sep : Char → Bool} {l : List Char} {s : Char} (r : List Char)
    (h : ∀ c ∈ l, sep c = false) (hs : sep s = true) :
    splitAtChars sep (l ++ s :: r) = l :: splitAtChars sep r := by
  induction l with
  | nil => simp [splitAtChars, hs]
  | cons c cs ih =>
    obtain ⟨hc, hcs⟩ := List.forall_mem_cons.1 h
    simp [splitAtChars, hc, ih hcs]

/-- A character that ends neither a word nor a line and starts no comment. -/
def isWordChar (c : Char) : Bool := !isBlank c && c != ';' && c != '\n'

theorem isWordChar_iff (c : Char) : isWordChar c = true ↔ isBlank c = false ∧ c ≠ ';' ∧ c ≠ '\n' := by
  simp [isWordChar, and_assoc]

/-- A text that can stand as a word of a line: a mnemonic or an operand. -/
structure IsWord (t : List Char) : Prop where
  ne_nil : t ≠ []
  chars : ∀ c ∈ t, isWordChar c = true

theorem IsWord.not_isEmpty {t : List Char} (h : IsWord t) : (!t.isEmpty) = true := by
  simpa [List.isEmpty_iff] using h.ne_nil

theorem IsWord.isBlank_eq_false {t : List Char} (h : IsWord t) : ∀ c ∈ t, isBlank c = false :=
  fun c hc => have ⟨hblank, _, _⟩ := (isWordChar_iff c).1 (h.chars c hc); hblank

theorem IsWord.ne_semicolon {t : List Char} (h : IsWord t) : ∀ c ∈ t, c ≠ ';' :=
  fun c hc => have ⟨_, hsemicolon, _⟩ := (isWordChar_iff c).1 (h.chars c hc); hsemicolon

theorem IsWord.ne_newline {t : List Char} (h : IsWord t) : ∀ c ∈ t, c ≠ '\n' :=
  fun c hc => have ⟨_, _, hnewline⟩ := (isWordChar_iff c).1 (h.chars c hc); hnewline

theorem IsWord.cons {c : Char} {t : List Char} (hc : isWordChar c = true) (h : ∀ d ∈ t, isWordChar d = true) :
    IsWord (c :: t) :=
  ⟨List.cons_ne_nil c t, List.forall_mem_cons.2 ⟨hc, h⟩⟩

theorem isWord_nextText : IsWord nextText := ⟨by decide, List.all_eq_true.1 (by decide)⟩

theorem isWord_initText : IsWord initText := ⟨by decide, List.all_eq_true.1 (by decide)⟩

theorem dropComment_eq_self {line : List Char} (h : ∀ c ∈ line, c ≠ ';') : dropComment line = line :=
  List.takeWhile_eq_self_iff.2 fun c hc => bne_iff_ne.2 (h c hc)

/-- A line of two words with one blank between them. -/
theorem lineTokens_pair {t u : List Char} (ht : IsWord t) (hu : IsWord u) :
    lineTokens (dropComment (t ++ ' ' :: u)) = [t, u] := by
  have hcomment : ∀ c ∈ t ++ ' ' :: u, c ≠ ';' :=
    List.forall_mem_append.2 ⟨ht.ne_semicolon, List.forall_mem_cons.2 ⟨by decide, hu.ne_semicolon⟩⟩
  rw [dropComment_eq_self hcomment, lineTokens, splitAtChars_append_cons u ht.isBlank_eq_false rfl,
    splitAtChars_eq_singleton hu.isBlank_eq_false]
  exact List.filter_eq_self.2 (List.forall_mem_cons.2 ⟨ht.not_isEmpty, List.forall_mem_singleton.2 hu.not_isEmpty⟩)

/-! ### Lines by their mnemonic -/

theorem readLine_nextText : readLine nextText = some [.next] := by decide

theorem readLine_init {operand : List Char} (h : IsWord operand) :
    readLine (initText ++ ' ' :: operand) = (readImm32 operand).map (fun seed => [.init seed]) := by
  rw [readLine, lineTokens_pair isWord_initText h]
  exact if_pos (by decide)

theorem readLine_next_times {ds : List Char} (h : IsWord ('x' :: ds)) :
    readLine (nextText ++ ' ' :: 'x' :: ds) = (readNumber decDigit? 10 ds).map (fun n => List.replicate n .next) := by
  rw [readLine, lineTokens_pair isWord_nextText h]
  exact (if_neg (by decide)).trans (if_pos (by decide))

/-! ### Decimal numbers -/

theorem isWordChar_of_isDigit {c : Char} (h : c.isDigit = true) : isWordChar c = true := by
  have hne : ∀ x : Char, x.isDigit = false → c ≠ x := by
    rintro _ hx rfl
    simp [h] at hx
  simp [isWordChar, isBlank, hne ' ' rfl, hne '\t' rfl, hne '\r' rfl, hne ';' rfl, hne '\n' rfl]

theorem decDigit?_of_isDigit {c : Char} (h : c.isDigit = true) : decDigit? c = some (c.toNat - '0'.toNat) := by
  obtain ⟨hlo, hhi⟩ : '0'.val ≤ c.val ∧ c.val ≤ '9'.val := by simpa [Char.isDigit] using h
  exact if_pos (by simpa using And.intro (UInt32.le_iff_toNat_le.1 hlo) (UInt32.le_iff_toNat_le.1 hhi))

/-- Reading decimal digits is the library's reading of them. -/
theorem readDigitsFrom_decimal {ds : List Char} (h : ∀ c ∈ ds, c.isDigit = true) (acc : Nat) :
    readDigitsFrom decDigit? 10 acc ds = some (Nat.ofDigitChars 10 ds acc) := by
  induction ds generalizing acc with
  | nil => rfl
  | cons c cs ih =>
    obtain ⟨hc, hcs⟩ := List.forall_mem_cons.1 h
    rw [readDigitsFrom, decDigit?_of_isDigit hc, Nat.ofDigitChars_cons, Nat.mul_comm 10]
    exact ih hcs _

theorem isDigit_of_mem_toDigits (n : Nat) : ∀ c ∈ Nat.toDigits 10 n, c.isDigit = true :=
  fun _ hc => Nat.isDigit_of_mem_toDigits (by decide) (by decide) hc

theorem isWordChar_of_mem_toDigits (n : Nat) : ∀ c ∈ Nat.toDigits 10 n, isWordChar c = true :=
  fun c hc => isWordChar_of_isDigit (isDigit_of_mem_toDigits n c hc)

theorem readNumber_toDigits (n : Nat) : readNumber decDigit? 10 (Nat.toDigits 10 n) = some n := by
  rw [readNumber, if_neg (by simp), readDigitsFrom_decimal (isDigit_of_mem_toDigits n),
    Nat.ofDigitChars_ten_toDigits]

/-- The range check of a decimal seed; a decimal spelling never begins with `0x`. -/
theorem readImm32_toDigits (n : Nat) :
    readImm32 (Nat.toDigits 10 n) = if n ≤ 4294967295 then some (BitVec.ofNat 32 n) else none := by
  have hprefix : ∀ hs, Nat.toDigits 10 n ≠ '0' :: 'x' :: hs := fun hs h => by
    have hx := isDigit_of_mem_toDigits n 'x' (by simp [h])
    simp at hx
  unfold readImm32
  split
  next hs h => exact absurd h (hprefix hs)
  next => simp [readNumber_toDigits, imm32Ok]

/-! ### Hexadecimal numbers -/

theorem hexDigit?_hexChar : ∀ d < 16, hexDigit? (hexChar d) = some d := by decide

theorem isWordChar_hexChar : ∀ d < 16, isWordChar (hexChar d) = true := by decide

theorem length_hexDigits (k n : Nat) : (hexDigits k n).length = k := by
  induction k with
  | zero => rfl
  | succ k ih => rw [hexDigits, List.length_cons, ih]

theorem isWordChar_of_mem_hexDigits (k n : Nat) : ∀ c ∈ hexDigits k n, isWordChar c = true := by
  induction k with
  | zero => exact List.forall_mem_nil _
  | succ k ih => exact List.forall_mem_cons.2 ⟨isWordChar_hexChar _ (Nat.mod_lt _ (by decide)), ih⟩

/-- `k` hexadecimal digits hold a number modulo 16^k. -/
theorem readDigitsFrom_hexDigits (k n acc : Nat) :
    readDigitsFrom hexDigit? 16 acc (hexDigits k n) = some (acc * 16 ^ k + n % 16 ^ k) := by
  induction k generalizing acc with
  | zero => simp [hexDigits, readDigitsFrom, Nat.mod_one]
  | succ k ih =>
    have hvalue : (acc * 16 + n / 16 ^ k % 16) * 16 ^ k + n % 16 ^ k = acc * 16 ^ (k + 1) + n % 16 ^ (k + 1) := by
      rw [Nat.mod_pow_succ]
      ring
    rw [hexDigits, readDigitsFrom, hexDigit?_hexChar _ (Nat.mod_lt _ (by decide))]
    exact (ih _).trans (congrArg some hvalue)

theorem isWord_writeImm32 (w : Word) : IsWord (writeImm32 w) :=
  .cons (by decide) (List.forall_mem_cons.2 ⟨by decide, isWordChar_of_mem_hexDigits 8 w.toNat⟩)

/-- The eight digits of a written seed read back as the seed. -/
theorem readImm32_writeImm32 (w : Word) : readImm32 (writeImm32 w) = some w := by
  have hnumber : readNumber hexDigit? 16 (hexDigits 8 w.toNat) = some w.toNat := by
    rw [readNumber, if_neg (by simp [hexDigits]), readDigitsFrom_hexDigits, Nat.zero_mul, Nat.zero_add,
      Nat.mod_eq_of_lt (by omega)]
  have hrange : w.toNat ≤ 4294967295 := by omega
  simp [readImm32, writeImm32, length_hexDigits, hnumber, imm32Ok, hrange]

/-! ### Whole scripts -/

theorem readLine_writeLine (i : Instr) : readLine (writeLine i) = some [i] := by
  cases i with
  | next => exact readLine_nextText
  | init seed => rw [writeLine, readLine_init (isWord_writeImm32 seed), readImm32_writeImm32, Option.map_some]

theorem ne_newline_of_mem_writeLine (i : Instr) : ∀ c ∈ writeLine i, c ≠ '\n' := by
  cases i with
  | next => exact isWord_nextText.ne_newline
  | init seed =>
    exact List.forall_mem_append.2 ⟨isWord_initText.ne_newline,
      List.forall_mem_cons.2 ⟨by decide, (isWord_writeImm32 seed).ne_newline⟩⟩

/-- The lines of a written script are those of its commands and, after the last line end, an empty one. -/
theorem scriptLines_writeScript (is : List Instr) : scriptLines (writeScript is) = is.map writeLine ++ [[]] := by
  induction is with
  | nil => rfl
  | cons i is ih =>
    have hline : ∀ c ∈ writeLine i, (c == '\n') = false :=
      fun c hc => beq_eq_false_iff_ne.2 (ne_newline_of_mem_writeLine i c hc)
    have htext : writeScript (i :: is) = writeLine i ++ '\n' :: writeScript is := by simp [writeScript]
    rw [htext, scriptLines, splitAtChars_append_cons _ hline rfl]
    exact congrArg (writeLine i :: ·) ih

theorem readLines_writeLine (is : List Instr) : readLines (is.map writeLine ++ [[]]) = some is := by
  induction is with
  | nil => rfl
  | cons i is ih =>
    rw [List.map_cons, List.cons_append, readLines, readLine_writeLine, ih]
    rfl

theorem readScript_writeScript (is : List Instr) : readScript (writeScript is) = some is := by
  rw [readScript, scriptLines_writeScript, readLines_writeLine]

end Sys2Proof.Machine
end

section
/-! The statements of the family 30_encoding.md about scripts. -/

namespace Sys2Proof.Proofs

open Sys2Proof.Machine

/-- Settles O53: every written line reads back as its command, line by line. -/
theorem scriptsReadBack : Obligations.ScriptsReadBack := fun is =>
  ⟨readScript_writeScript is, by rw [assembleScript, readScript_writeScript, Option.map_some]⟩

/-- Settles O54: the digits after the x read back as their number. -/
theorem nextTimesExpands : Obligations.NextTimesExpands := by
  intro n
  have hword : IsWord ('x' :: Nat.toDigits 10 n) := .cons (by decide) (isWordChar_of_mem_toDigits n)
  rw [readLine_next_times hword, readNumber_toDigits, Option.map_some]

/-- Settles O55: the operand is a decimal number, read and then checked against 4294967295. -/
theorem decimalSeedsAreRangeChecked : Obligations.DecimalSeedsAreRangeChecked := by
  intro n
  have hword : IsWord (Nat.toDigits 10 n) := ⟨Nat.toDigits_ne_nil, isWordChar_of_mem_toDigits n⟩
  rw [readLine_init hword, readImm32_toDigits]
  split <;> rfl

end Sys2Proof.Proofs
end

section
/-! The facts about the arithmetic primitives that the statements of 40_round.md need, in the order of R70 to R77: each
operation as a number or bit by bit, and which operation undoes which. -/

namespace Sys2Proof.Machine

/-! ### Sum, difference, exclusive or -/

theorem toNat_add32 (x y : Word) : (add32 x y).toNat = (x.toNat + y.toNat) % 2 ^ 32 := BitVec.toNat_add x y

theorem add32_zero (x : Word) : add32 x 0#32 = x := BitVec.add_zero x

/-- The carry out of bit 31 is bit 32 of the 33-bit sum, and is dropped (40_round.md R70). -/
theorem add32_eq_extractLsb' (x y : Word) : add32 x y = (x.setWidth 33 + y.setWidth 33).extractLsb' 0 32 := by
  rw [← BitVec.setWidth_eq_extractLsb' (by omega), BitVec.setWidth_add _ _ (by omega),
    BitVec.setWidth_setWidth_of_le _ (by omega), BitVec.setWidth_setWidth_of_le _ (by omega),
    BitVec.setWidth_eq, BitVec.setWidth_eq, add32]

theorem toNat_sub32 (x y : Word) : (sub32 x y).toNat = (2 ^ 32 + x.toNat - y.toNat) % 2 ^ 32 := by
  rw [sub32, BitVec.toNat_sub]
  congr 1
  omega

theorem sub32_zero (x : Word) : sub32 x 0#32 = x := BitVec.sub_zero x

theorem sub32_self (x : Word) : sub32 x x = 0#32 := BitVec.sub_self x

theorem add32_eq_iff_eq_sub32 (x y r : Word) : add32 r y = x ↔ r = sub32 x y := BitVec.eq_sub_iff_add_eq.symm

@[simp] theorem sub32_add32_cancel (x y : Word) : add32 (sub32 x y) y = x := (add32_eq_iff_eq_sub32 x y _).2 rfl

@[simp] theorem add32_sub32_cancel (x y : Word) : sub32 (add32 x y) y = x := ((add32_eq_iff_eq_sub32 _ y x).1 rfl).symm

/-- Subtraction adds the two's complement (40_round.md R71). -/
theorem sub32_eq_add32_complement (x y : Word) : sub32 x y = add32 x (add32 (xor32 y 0xFFFFFFFF#32) 1#32) := by
  have hnot : xor32 y 0xFFFFFFFF#32 = ~~~y := BitVec.xor_allOnes
  rw [hnot, sub32, BitVec.sub_eq_add_neg, BitVec.neg_eq_not_add, add32, add32]

theorem getLsbD_xor32 (x y : Word) (i : Nat) : (xor32 x y).getLsbD i = (x.getLsbD i ^^ y.getLsbD i) :=
  BitVec.getLsbD_xor

theorem xor32_zero (x : Word) : xor32 x 0#32 = x := BitVec.xor_zero

theorem xor32_self (x : Word) : xor32 x x = 0#32 := BitVec.xor_self

@[simp] theorem xor32_xor32_cancel (x y : Word) : xor32 (xor32 x y) y = x := by
  rw [xor32, xor32, BitVec.xor_assoc, BitVec.xor_self, BitVec.xor_zero]

/-! ### Shifts -/

theorem toNat_shl32 (x : Word) (k : RotAmount) : (shl32 x k).toNat = x.toNat * 2 ^ k.val % 2 ^ 32 := by
  rw [shl32, BitVec.toNat_shiftLeft, Nat.shiftLeft_eq]

theorem toNat_shr32 (x : Word) (k : RotAmount) : (shr32 x k).toNat = x.toNat / 2 ^ k.val := by
  rw [shr32, BitVec.toNat_ushiftRight, Nat.shiftRight_eq_div_pow]

theorem getLsbD_shl32 (x : Word) (k : RotAmount) {i : Nat} (hi : i < 32) :
    (shl32 x k).getLsbD i = if k.val ≤ i then x.getLsbD (i - k.val) else false := by
  rw [shl32, BitVec.getLsbD_shiftLeft]
  split
  next hle => simp [hi, hle]
  next hlt => simp [Nat.lt_of_not_le hlt]

/-- Zeros enter at the top: above bit 31 - k the operand has no bit left (40_round.md R73). -/
theorem getLsbD_shr32 (x : Word) (k : RotAmount) (i : Nat) :
    (shr32 x k).getLsbD i = if i ≤ 31 - k.val then x.getLsbD (i + k.val) else false := by
  obtain ⟨-, hk⟩ := rotAmount_bounds k
  rw [shr32, BitVec.getLsbD_ushiftRight, Nat.add_comm k.val i]
  split
  next => rfl
  next hgt => exact BitVec.getLsbD_of_ge x _ (by omega)

/-! ### Rotations -/

theorem getLsbD_rotl32 (x : Word) (k : RotAmount) {i : Nat} (hi : i < 32) :
    (rotl32 x k).getLsbD i = x.getLsbD ((i + 32 - k.val) % 32) := by
  obtain ⟨hk1, hk31⟩ := rotAmount_bounds k
  rw [rotl32, BitVec.getLsbD_or, getLsbD_shl32 x k hi, getLsbD_shr32, coAmount_val]
  by_cases hlow : k.val ≤ i
  · have hbit : (i + 32 - k.val) % 32 = i - k.val := by omega
    rw [if_pos hlow, if_neg (by omega), Bool.or_false, hbit]
  · have hbit : (i + 32 - k.val) % 32 = i + (32 - k.val) := by omega
    rw [if_neg hlow, if_pos (by omega), Bool.false_or, hbit]

theorem getLsbD_rotl32_add (x : Word) (k : RotAmount) {j : Nat} (hj : j < 32) :
    (rotl32 x k).getLsbD ((j + k.val) % 32) = x.getLsbD j := by
  obtain ⟨hk1, hk31⟩ := rotAmount_bounds k
  rw [getLsbD_rotl32 x k (by omega)]
  congr 1
  omega

/-- The left shift leaves the k low bits 0 and the right shift all others (40_round.md R74). -/
theorem shl32_and_shr32_coAmount (x : Word) (k : RotAmount) : shl32 x k &&& shr32 x (coAmount k) = 0#32 := by
  obtain ⟨hk1, hk31⟩ := rotAmount_bounds k
  apply BitVec.eq_of_getLsbD_eq
  intro i hi
  rw [BitVec.getLsbD_and, getLsbD_shl32 x k hi, getLsbD_shr32, coAmount_val, BitVec.getLsbD_zero]
  by_cases hlow : k.val ≤ i
  · rw [if_neg (by omega : ¬ i ≤ 31 - (32 - k.val)), Bool.and_false]
  · rw [if_neg hlow, Bool.false_and]

theorem rotl32_eq_add32 (x : Word) (k : RotAmount) : rotl32 x k = add32 (shl32 x k) (shr32 x (coAmount k)) :=
  (BitVec.add_eq_or_of_and_eq_zero _ _ (shl32_and_shr32_coAmount x k)).symm

/-- Words that share no bit have the same or and exclusive or. -/
theorem or_eq_xor32_of_and_eq_zero {x y : Word} (h : x &&& y = 0#32) : x ||| y = xor32 x y := by
  apply BitVec.eq_of_getLsbD_eq
  intro i _
  have hbit : (x.getLsbD i && y.getLsbD i) = false := by rw [← BitVec.getLsbD_and, h, BitVec.getLsbD_zero]
  have hbool : ∀ p q : Bool, (p && q) = false → (p || q) = (p ^^ q) := by decide
  rw [BitVec.getLsbD_or, getLsbD_xor32, hbool _ _ hbit]

theorem rotl32_eq_xor32 (x : Word) (k : RotAmount) : rotl32 x k = xor32 (shl32 x k) (shr32 x (coAmount k)) :=
  or_eq_xor32_of_and_eq_zero (shl32_and_shr32_coAmount x k)

/-- Rotating left by k and then by 32 - k is a whole turn. -/
theorem rotl32_rotl32_coAmount (x : Word) (k : RotAmount) : rotl32 (rotl32 x k) (coAmount k) = x := by
  obtain ⟨hk1, hk31⟩ := rotAmount_bounds k
  apply BitVec.eq_of_getLsbD_eq
  intro i hi
  have hback : (i + 32 - (32 - k.val)) % 32 = (i + k.val) % 32 := by omega
  rw [getLsbD_rotl32 _ _ hi, coAmount_val, hback, getLsbD_rotl32_add x k hi]

theorem coAmount_coAmount (k : RotAmount) : coAmount (coAmount k) = k := by
  obtain ⟨hk1, hk31⟩ := rotAmount_bounds k
  apply Subtype.ext
  rw [coAmount_val, coAmount_val]
  omega

theorem rotl32_bijective (k : RotAmount) : Function.Bijective fun x => rotl32 x k := by
  refine Function.bijective_iff_has_inverse.2 ⟨fun x => rotl32 x (coAmount k), fun x => ?_, fun x => ?_⟩
  · exact rotl32_rotl32_coAmount x k
  · have hturn := rotl32_rotl32_coAmount x (coAmount k)
    rwa [coAmount_coAmount] at hturn

theorem rotl32_zero (k : RotAmount) : rotl32 0#32 k = 0#32 := by
  apply BitVec.eq_of_getLsbD_eq
  intro i hi
  rw [getLsbD_rotl32 _ _ hi, BitVec.getLsbD_zero, BitVec.getLsbD_zero]

theorem rotl32_allOnes (k : RotAmount) : rotl32 (BitVec.allOnes 32) k = BitVec.allOnes 32 := by
  apply BitVec.eq_of_getLsbD_eq
  intro i hi
  rw [getLsbD_rotl32 _ _ hi, BitVec.getLsbD_allOnes, BitVec.getLsbD_allOnes, decide_eq_true hi,
    decide_eq_true (Nat.mod_lt _ (by decide))]

theorem countP_range_add (p : Nat → Bool) (m n : Nat) :
    (List.range (m + n)).countP p = (List.range m).countP p + (List.range n).countP (fun i => p (m + i)) := by
  rw [List.range_add, List.countP_append, List.countP_map]
  rfl

/-- Two tests of the positions below m + k of which one is the other moved up by k, the top k positions to the bottom,
count the same. -/
theorem countP_range_of_moved {p q : Nat → Bool} {m k : Nat} (hwrapped : ∀ i < k, q i = p (m + i))
    (hmoved : ∀ i < m, q (k + i) = p i) : (List.range (m + k)).countP q = (List.range (m + k)).countP p := by
  have hbottom : (List.range k).countP q = (List.range k).countP (fun i => p (m + i)) :=
    List.countP_congr fun i hi => by rw [hwrapped i (List.mem_range.1 hi)]
  have htop : (List.range m).countP (fun i => q (k + i)) = (List.range m).countP p :=
    List.countP_congr fun i hi => by rw [hmoved i (List.mem_range.1 hi)]
  calc (List.range (m + k)).countP q
      = (List.range k).countP q + (List.range m).countP (fun i => q (k + i)) := by
        rw [Nat.add_comm, countP_range_add]
    _ = (List.range m).countP p + (List.range k).countP (fun i => p (m + i)) := by rw [hbottom, htop, Nat.add_comm]
    _ = (List.range (m + k)).countP p := (countP_range_add p m k).symm

/-- No bit is lost: the k low bits of the result are the k top bits of the operand, and the others are the others
(40_round.md R74). -/
theorem countP_getLsbD_rotl32 (x : Word) (k : RotAmount) :
    (List.range 32).countP (fun i => (rotl32 x k).getLsbD i) = (List.range 32).countP (fun i => x.getLsbD i) := by
  obtain ⟨hk1, hk31⟩ := rotAmount_bounds k
  have hwrapped : ∀ i < k.val, (rotl32 x k).getLsbD i = x.getLsbD (32 - k.val + i) := fun i hi => by
    rw [getLsbD_rotl32 x k (by omega)]
    congr 1
    omega
  have hmoved : ∀ i < 32 - k.val, (rotl32 x k).getLsbD (k.val + i) = x.getLsbD i := fun i hi => by
    rw [getLsbD_rotl32 x k (by omega)]
    congr 1
    omega
  have hcount := countP_range_of_moved hwrapped hmoved
  rwa [Nat.sub_add_cancel (by omega)] at hcount

theorem rotl32_eq_rotr32_coAmount (x : Word) (k : RotAmount) : rotl32 x k = rotr32 x (coAmount k) := by
  rw [rotr32, coAmount_coAmount]

/-- A rotation as wires: the low field of the operand goes to the top, the high field to the bottom (40_round.md R77). -/
theorem rotl32_eq_append (x : Word) (k : RotAmount) {m : Nat} (hm : m + k.val = 32) :
    rotl32 x k = (x.extractLsb' 0 m ++ x.extractLsb' m k.val).cast hm := by
  apply BitVec.eq_of_getLsbD_eq
  intro i hi
  rw [getLsbD_rotl32 x k hi, BitVec.getLsbD_cast, BitVec.getLsbD_append, BitVec.getLsbD_extractLsb',
    BitVec.getLsbD_extractLsb']
  by_cases hlow : i < k.val
  · have hbit : (i + 32 - k.val) % 32 = m + i := by omega
    rw [if_pos hlow, decide_eq_true hlow, Bool.true_and, hbit]
  · have hbit : (i + 32 - k.val) % 32 = 0 + (i - k.val) := by omega
    rw [if_neg hlow, decide_eq_true (by omega), Bool.true_and, hbit]

end Sys2Proof.Machine
end

section
/-! The facts about ROUND and its iterates that the statements of 40_round.md need. -/

namespace Sys2Proof.Machine

/-! ### The inverse of ROUND -/

@[ext] theorem GeneratorState.ext {g h : GeneratorState} (ha : g.a = h.a) (hb : g.b = h.b) (hc : g.c = h.c)
    (hd : g.d = h.d) : g = h := by
  cases g
  cases h
  exact (GeneratorState.mk.injEq ..).mpr ⟨ha, hb, hc, hd⟩

theorem invRound_d (g : GeneratorState) : (invRound g).d = sub32 g.c (sub32 g.d g.a) := rfl

theorem invRound_c (g : GeneratorState) : (invRound g).c = sub32 g.b (invRound g).d := rfl

theorem invRound_b (g : GeneratorState) : (invRound g).b = xor32 g.a (rotl32 (invRound g).c rotC) := rfl

theorem invRound_a (g : GeneratorState) : (invRound g).a = add32 (sub32 g.d g.a) (rotl32 (invRound g).b rotB) := rfl

/-- Each line of the inverse undoes one line of ROUND, from the last to the first (40_round.md R80). -/
theorem invRound_genRound (g : GeneratorState) : invRound (genRound g) = g := by
  have he : sub32 (genRound g).d (genRound g).a = roundE g.a g.b := by rw [genRound_d, genRound_a, add32_sub32_cancel]
  have hd : (invRound (genRound g)).d = g.d := by rw [invRound_d, he, genRound_c, add32_sub32_cancel]
  have hc : (invRound (genRound g)).c = g.c := by rw [invRound_c, hd, genRound_b, add32_sub32_cancel]
  have hb : (invRound (genRound g)).b = g.b := by rw [invRound_b, hc, genRound_a, xor32_xor32_cancel]
  have ha : (invRound (genRound g)).a = g.a := by rw [invRound_a, hb, he, roundE, sub32_add32_cancel]
  exact GeneratorState.ext ha hb hc hd

theorem genRound_invRound (g : GeneratorState) : genRound (invRound g) = g := by
  have he : roundE (invRound g).a (invRound g).b = sub32 g.d g.a := by rw [roundE, invRound_a, add32_sub32_cancel]
  have ha : xor32 (invRound g).b (rotl32 (invRound g).c rotC) = g.a := by rw [invRound_b, xor32_xor32_cancel]
  have hb : (genRound (invRound g)).b = g.b := by rw [genRound_b, invRound_c, sub32_add32_cancel]
  have hc : (genRound (invRound g)).c = g.c := by rw [genRound_c, he, invRound_d, sub32_add32_cancel]
  have hd : (genRound (invRound g)).d = g.d := by rw [genRound_d, he, ha, sub32_add32_cancel]
  exact GeneratorState.ext ha hb hc hd

theorem genRound_bijective : Function.Bijective genRound :=
  Function.bijective_iff_has_inverse.2 ⟨invRound, invRound_genRound, genRound_invRound⟩

theorem roundN_injective (n : Nat) : Function.Injective (roundN n) := genRound_bijective.injective.iterate n

/-! ### The set of states is finite -/

/-- A state of the generator is its four words (10_state.md R10). -/
def generatorStateEquiv : GeneratorState ≃ Word × Word × Word × Word where
  toFun g := (g.a, g.b, g.c, g.d)
  invFun := fun (a, b, c, d) => ⟨a, b, c, d⟩

theorem finite_generatorState : Finite GeneratorState := .of_equiv _ generatorStateEquiv.symm

theorem natCard_generatorState : Nat.card GeneratorState = 2 ^ 128 := by
  have hword : Nat.card Word = 2 ^ 32 := by
    rw [Nat.card_eq_fintype_card, ← FinEnum.card_eq_fintypeCard, FinEnum.card_bitVec]
  rw [Nat.card_congr generatorStateEquiv, Nat.card_prod, Nat.card_prod, Nat.card_prod, hword]
  norm_num

theorem minimalPeriod_le (f : GeneratorState → GeneratorState) (g : GeneratorState) :
    Function.minimalPeriod f g ≤ 2 ^ 128 := by
  have := finite_generatorState
  have := Fintype.ofFinite GeneratorState
  rw [← natCard_generatorState, Nat.card_eq_fintype_card]
  exact Function.minimalPeriod_le_card

/-- A permutation of a finite set has no lead-in: every state lies on its own cycle (40_round.md R81). -/
theorem mem_periodicPts_genRound (g : GeneratorState) : g ∈ Function.periodicPts genRound :=
  have := finite_generatorState
  genRound_bijective.injective.mem_periodicPts g

/-! ### The all-zero state -/

/-- The all-zero state (40_round.md R82). -/
abbrev zeroState : GeneratorState := ⟨0#32, 0#32, 0#32, 0#32⟩

theorem roundE_zero : roundE 0#32 0#32 = 0#32 := by rw [roundE, rotl32_zero, sub32_self]

theorem genRound_zeroState : genRound zeroState = zeroState := by
  have ha : (genRound zeroState).a = 0#32 := by rw [genRound_a, rotl32_zero, xor32_self]
  refine GeneratorState.ext ha ?_ ?_ ?_
  · rw [genRound_b, add32_zero]
  · rw [genRound_c, roundE_zero, add32_zero]
  · rw [genRound_d, ← genRound_a, ha, roundE_zero, add32_zero]

theorem roundN_eq_zeroState_iff (n : Nat) (g : GeneratorState) : roundN n g = zeroState ↔ g = zeroState :=
  (roundN_injective n).eq_iff' (Function.iterate_fixed genRound_zeroState n)

theorem genRound_eq_zeroState_iff (g : GeneratorState) : genRound g = zeroState ↔ g = zeroState :=
  roundN_eq_zeroState_iff 1 g

theorem loadState_injective : Function.Injective loadState := fun _ _ h => congrArg GeneratorState.b h

/-- The word a of a load state is not 0 (40_round.md R83). -/
theorem loadState_ne_zeroState (seed : Word) : loadState seed ≠ zeroState := fun h =>
  have ha : initA = 0#32 := congrArg GeneratorState.a h
  absurd ha (by decide)

theorem seededState_injective : Function.Injective seededState := fun seed seed' h => by
  rw [seededState_eq, seededState_eq] at h
  exact loadState_injective (roundN_injective initRounds h)

theorem seededState_ne_zeroState (seed : Word) : seededState seed ≠ zeroState := by
  rw [seededState_eq, ne_eq, roundN_eq_zeroState_iff]
  exact loadState_ne_zeroState seed

/-! ### Scripts that begin or end in the all-zero state -/

theorem runScript_next_of_zeroState (n : Nat) (s : State) (hs : s.gen = zeroState) :
    ∃ t, runScript (List.replicate n .next) s = .next (List.replicate n 0#32, t) ∧ t.gen = zeroState := by
  induction n generalizing s with
  | zero => exact ⟨s, rfl, hs⟩
  | succ n ih =>
    have hround : genRound s.gen = zeroState := by rw [hs, genRound_zeroState]
    obtain ⟨t, hrun, ht⟩ := ih s.advance hround
    have hfirst := runScript_next _ s t _ hrun
    rw [hround] at hfirst
    exact ⟨t, hfirst, ht⟩

/-- Read backwards from its end, a script that ends in the all-zero state has only commands that map no other state
there. -/
theorem runScript_ends_in_zeroState (is : List Instr) (s : State) :
    ∃ ws t, runScript is s = .next (ws, t) ∧ (t.gen = zeroState → s.gen = zeroState ∧ ∀ i ∈ is, i = .next) := by
  induction is generalizing s with
  | nil => exact ⟨[], s, rfl, fun h => ⟨h, List.forall_mem_nil _⟩⟩
  | cons i is ih =>
    cases i with
    | next =>
      obtain ⟨ws, t, hrun, hback⟩ := ih s.advance
      refine ⟨_, t, runScript_next is s t ws hrun, fun ht => ?_⟩
      obtain ⟨hs, his⟩ := hback ht
      exact ⟨(genRound_eq_zeroState_iff s.gen).1 hs, List.forall_mem_cons.2 ⟨rfl, his⟩⟩
    | init seed =>
      obtain ⟨ws, t, hrun, hback⟩ := ih (s.seedWith seed)
      refine ⟨ws, t, runScript_init seed is s t ws hrun, fun ht => ?_⟩
      obtain ⟨hs, -⟩ := hback ht
      rw [State.seedWith_gen] at hs
      exact absurd hs (seededState_ne_zeroState seed)

end Sys2Proof.Machine
end

section
/-! The statements of the family 40_round.md about the arithmetic primitives. -/

namespace Sys2Proof.Proofs

open Sys2Proof.Machine

/-- Settles O7: the sum of bit vectors, which is a commutative group. -/
theorem addWrapsModulo : Obligations.AddWrapsModulo :=
  ⟨fun x y => ⟨toNat_add32 x y, add32_eq_extractLsb' x y, BitVec.add_comm x y, add32_zero x⟩, BitVec.add_assoc,
    by decide⟩

/-- Settles O8: subtraction undoes addition, and adds the two's complement. -/
theorem subUndoesAdd : Obligations.SubUndoesAdd :=
  ⟨add32_eq_iff_eq_sub32,
    fun x y => ⟨toNat_sub32 x y, sub32_eq_add32_complement x y, sub32_zero x, sub32_self x⟩, by decide⟩

/-- Settles O9, from the bits of an exclusive or. -/
theorem xorIsBitwise : Obligations.XorIsBitwise :=
  ⟨fun x y i _ => getLsbD_xor32 x y i, fun x => ⟨xor32_zero x, xor32_self x⟩, by decide⟩

/-- Settles O10, from each shift as a number and bit by bit. -/
theorem shiftsAreLogical : Obligations.ShiftsAreLogical := by
  intro x k
  obtain ⟨hk1, hk31⟩ := rotAmount_bounds k
  exact ⟨hk1, hk31, toNat_shl32 x k, toNat_shr32 x k, fun i hi => ⟨getLsbD_shl32 x k hi, getLsbD_shr32 x k i⟩⟩

/-- Settles O11: every bit of the result is one bit of the operand, and rotating on to a whole turn is the inverse. -/
theorem rotateLeftMovesEveryBit : Obligations.RotateLeftMovesEveryBit := by
  refine ⟨fun x k => ?_, fun k => ⟨rotl32_bijective k, rotl32_zero k, rotl32_allOnes k⟩, rotB_val, rotC_val, by decide⟩
  exact ⟨rfl, shl32_and_shr32_coAmount x k, rotl32_eq_add32 x k, rotl32_eq_xor32 x k, fun _ => getLsbD_rotl32 x k,
    fun _ => getLsbD_rotl32_add x k, countP_getLsbD_rotl32 x k⟩

/-- Settles O12: the general wiring at the two amounts of the engine. -/
theorem rotationsAreWirings : Obligations.RotationsAreWirings :=
  ⟨fun _ _ => rfl, fun x =>
    ⟨rotl32_eq_rotr32_coAmount x rotB, rfl, rotl32_eq_append x rotB rfl,
      rotl32_eq_rotr32_coAmount x rotC, rfl, rotl32_eq_append x rotC rfl⟩⟩

end Sys2Proof.Proofs
end

section
/-! The statements of the family 40_round.md about ROUND. -/

namespace Sys2Proof.Proofs

open Sys2Proof.Machine

/-- Settles O13: e is the intermediate word of the model and rb its rotated b; each line is one primitive. -/
theorem roundComputesItsFiveLines : Obligations.RoundComputesItsFiveLines := by
  refine ⟨fun g => ⟨roundE g.a g.b, rotl32 g.b rotB, fun i hi => getLsbD_rotl32 g.b rotB hi, toNat_sub32 _ _,
    fun i hi => ?_, toNat_add32 _ _, toNat_add32 _ _, toNat_add32 _ _⟩, by decide⟩
  rw [genRound_a, getLsbD_xor32, getLsbD_rotl32 g.c rotC hi]
  rfl

/-- Settles O14: the rotations of the model are those of the library, and the lines are substituted into one another. -/
theorem roundHasAParallelForm : Obligations.RoundHasAParallelForm := by
  refine ⟨fun g => ?_, by decide⟩
  have hrotB : rotl32 g.b rotB = g.b.rotateLeft 27 := rotl32_eq_rotateLeft g.b rotB
  have hrotC : rotl32 g.c rotC = g.c.rotateLeft 17 := rotl32_eq_rotateLeft g.c rotC
  rw [← hrotB, ← hrotC]
  rfl

/-- Settles O15, from the two cancellation laws of ROUND and its inverse. -/
theorem roundHasAnInverse : Obligations.RoundHasAnInverse :=
  ⟨genRound_bijective, invRound_genRound, genRound_invRound,
    fun g => ⟨sub32 g.d g.a, rfl, invRound_d g, invRound_c g, invRound_b g, invRound_a g⟩, by decide⟩

/-- Settles O16: the length is the minimal period, which the number of states bounds. -/
theorem roundReturnsToItsStart : Obligations.RoundReturnsToItsStart := fun g =>
  ⟨Function.minimalPeriod genRound g, Function.minimalPeriod_pos_of_mem_periodicPts (mem_periodicPts_genRound g),
    minimalPeriod_le genRound g, Function.iterate_minimalPeriod⟩

/-- Settles O17: ROUND is injective and fixes the all-zero state, so NEXT delivers its word 0 again and again. -/
theorem zeroStateIsFixed : Obligations.ZeroStateIsFixed := by
  refine ⟨genRound_zeroState, roundE_zero, fun g => (genRound_eq_zeroState_iff g).1, fun n s hs => ?_⟩
  rw [hs]
  exact runScript_next_of_zeroState n s hs

/-- Settles O18: no load state is all zero, and ROUND maps only the all-zero state there. -/
theorem seededIsNeverZero : Obligations.SeededIsNeverZero :=
  ⟨fun seed n h => seededState_ne_zeroState seed ((roundN_eq_zeroState_iff n _).1 h), runScript_ends_in_zeroState⟩

/-- Settles O27: INIT and every round are injective. -/
theorem distinctSeedsDistinctStates : Obligations.DistinctSeedsDistinctStates := fun _ _ n h =>
  seededState_injective (roundN_injective n h)

end Sys2Proof.Proofs
end

section
/-! The facts about NEXT, its output and runs of NEXT commands that the statements of 41_next.md need. -/

namespace Sys2Proof.Machine

/-! ### The ports while a word is on offer -/

@[simp] theorem outputs_outValid (rst : Bool) (obs : Nat) (s : State) : (outputs rst obs s).outValid = s.ov := rfl

theorem outputs_outData_of_ov {s : State} (h : s.ov = true) (rst : Bool) (obs : Nat) :
    (outputs rst obs s).outData = s.gen.d := if_pos h

/-- The result of NEXT on the ports: out_valid = 1 and out_data is the new word d (41_next.md R90). -/
theorem outputs_advance (rst : Bool) (obs : Nat) (s : State) :
    (outputs rst obs s.advance).outValid = true ∧ (outputs rst obs s.advance).outData = (genRound s.gen).d :=
  have hov := State.advance_ov s
  ⟨(outputs_outValid rst obs s.advance).trans hov, outputs_outData_of_ov hov rst obs⟩

theorem offered_advance (s : State) : offered s.advance = some (genRound s.gen).d :=
  offered_of_ov (State.advance_ov s)

/-! ### NEXT at the head of a script -/

/-- An idle engine performs a NEXT its host presents, whatever stands in the ignored field (41_next.md R90, R93). -/
theorem step_of_script_next {s : State} {ign : Word} {ws : List CommandWord}
    (hhost : s.host = .script (packCommand opNext ign :: ws)) (hrc : s.rc = 0#5) :
    step s = .next (s.advance.withHost (.script ws)) := by
  rw [step_of_script hhost hrc, decode_packCommand_next, exec_next, withHost_advance]

/-! ### Rounds of particular states -/

/-- The example of 40_round.md R76 and 41_next.md R90. -/
theorem genRound_example : genRound ⟨0x00000001#32, 0x00000002#32, 0x00000003#32, 0x00000004#32⟩ =
    ⟨0x00060002#32, 0x00000007#32, 0xF0000005#32, 0xF0060003#32⟩ := by decide

/-- With all bits set the intermediate word e is 0, and c + d wraps (41_next.md R94). -/
theorem genRound_allOnes : genRound ⟨0xFFFFFFFF#32, 0xFFFFFFFF#32, 0xFFFFFFFF#32, 0xFFFFFFFF#32⟩ =
    ⟨0x00000000#32, 0xFFFFFFFE#32, 0xFFFFFFFF#32, 0x00000000#32⟩ := by decide

/-- A subtraction that borrows: e is 0xF8000000 (41_next.md R94). -/
theorem genRound_borrow : genRound ⟨0#32, 1#32, 0#32, 0#32⟩ =
    ⟨0x00000001#32, 0x00000000#32, 0xF8000000#32, 0xF8000001#32⟩ := by decide

theorem genRound_b_of_allOnes {g : GeneratorState} (hc : g.c = 0xFFFFFFFF#32) (hd : g.d = 0xFFFFFFFF#32) :
    (genRound g).b = 0xFFFFFFFE#32 := by
  rw [genRound_b, hc, hd]
  decide

/-! ### Runs of NEXT commands -/

/-- The words that `n` NEXT commands return from the state words `g`: the fourth words of ROUND^1(g) to ROUND^n(g)
(41_next.md R96). -/
def nextWords (n : Nat) (g : GeneratorState) : List Word := (List.range n).map fun k => (roundN (k + 1) g).d

theorem nextWords_succ_first (n : Nat) (g : GeneratorState) :
    nextWords (n + 1) g = (genRound g).d :: nextWords n (genRound g) := by
  rw [nextWords, List.range_succ_eq_map, List.map_cons, List.map_map]
  rfl

/-- The state that `n` NEXT commands leave: `n` rounds, `ov` = 1 if there was a command, and nothing else changed
(41_next.md R96). -/
theorem iterate_advance (n : Nat) (s : State) :
    State.advance^[n] s = { s with gen := roundN n s.gen, ov := s.ov || decide (0 < n) } := by
  induction n with
  | zero => simp
  | succ n ih =>
    rw [Function.iterate_succ_apply', ih, roundN_succ]
    simp [State.advance]

/-- The first NEXT returns the word of the first round; the others go on from the state it leaves. -/
theorem runScript_replicate_next (n : Nat) (s : State) :
    runScript (List.replicate n .next) s = .next (nextWords n s.gen, State.advance^[n] s) := by
  induction n generalizing s with
  | zero => rfl
  | succ n ih =>
    rw [nextWords_succ_first, Function.iterate_succ_apply]
    exact runScript_next _ s _ _ (ih s.advance)

end Sys2Proof.Machine
end

section
/-! The statements of the family 41_next.md. -/

namespace Sys2Proof.Proofs

open Sys2Proof.Machine

/-- Settles O22: the words by induction on n, and the end state as n advances. -/
theorem nextCommandsGiveTheStream : Obligations.NextCommandsGiveTheStream := by
  intro n s
  rw [runScript_replicate_next, iterate_advance]
  rfl

/-- Settles O19: NEXT is one advance, whose words are those of the parallel form of ROUND (40_round.md R79). -/
theorem nextAdvancesOneRound : Obligations.NextAdvancesOneRound := by
  obtain ⟨hparallel, -⟩ := roundHasAParallelForm
  refine ⟨decode_packCommand_next, fun s => ?_, fun s => ?_, fun s hs => ?_⟩
  · rw [exec_next, State.advance, hparallel]
  · exact ⟨s.advance, exec_next s, State.advance_seeded s, offered_advance s, fun rst obs => outputs_advance rst obs s⟩
  · have hround := genRound_example
    rw [← hs] at hround
    refine ⟨s.advance, exec_next s, hround, fun rst obs => ?_⟩
    obtain ⟨hvalid, hdata⟩ := outputs_advance rst obs s
    exact ⟨hvalid, hdata.trans (congrArg GeneratorState.d hround)⟩

/-- Settles O20: the step is the advance of R90, which reads neither `seeded` nor what the host holds. -/
theorem nextBeforeInitRuns : Obligations.NextBeforeInitRuns :=
  ⟨fun s => ⟨s.advance, exec_next s⟩, fun s _ ws hseeded hrc hhost =>
    ⟨s.advance.withHost (.script ws), step_of_script_next hhost hrc, State.advance_gen s, hseeded,
      State.advance_ov s, offered_advance s, hrc, State.advance_draws s, State.withHost_host _ _⟩⟩

/-- Settles O21: the words after NEXT are one round of the words before it. -/
theorem nextCornerCases : Obligations.NextCornerCases := fun s =>
  ⟨s.advance, exec_next s, State.advance_ov s, State.advance_seeded s,
    fun hs => (congrArg genRound hs).trans genRound_zeroState,
    fun hs => (congrArg genRound hs).trans genRound_allOnes,
    fun hs => (congrArg genRound hs).trans genRound_borrow,
    fun ⟨hc, hd⟩ => genRound_b_of_allOnes hc hd⟩

end Sys2Proof.Proofs
end

section
/-! The facts about INIT, its micro-steps and scripts that hold an INIT that the statements of 42_init.md need. -/

namespace Sys2Proof.Machine

/-! ### The words INIT leaves -/

/-- `seededState` with the literals of 42_init.md R100. -/
theorem seededState_eq_roundN_twenty (seed : Word) :
    seededState seed = roundN 20 ⟨0xF1EA5EED#32, seed, seed, seed⟩ := seededState_eq seed

/-- The round of the first NEXT after INIT is the twenty-first of the load state (42_init.md R106). -/
theorem genRound_seededState (seed : Word) :
    genRound (seededState seed) = roundN 21 ⟨0xF1EA5EED#32, seed, seed, seed⟩ := by
  rw [seededState_eq_roundN_twenty, ← roundN_succ]

/-- The example of 42_init.md R100. -/
theorem seededState_zero :
    seededState 0#32 = ⟨0x1B517AA6#32, 0x0D3D55A3#32, 0x44D68D47#32, 0x7A484BC9#32⟩ := by decide

/-- The first word after the example of 42_init.md R100. -/
theorem genRound_seededState_zero_d : (genRound (seededState 0#32)).d = 0x1A9B6C07#32 := by
  rw [seededState_zero]
  decide

/-- INIT leaves no word on offer (42_init.md R106). -/
theorem offered_seedWith (seed : Word) (s : State) : offered (s.seedWith seed) = none :=
  offered_of_not_ov (State.seedWith_ov seed s)

/-! ### Discard rounds in a row -/

/-- `n` discard rounds of a busy engine, up to the last one that `rc` asks for: the last one sets `seeded`, and `ov` is
not written (70_reset_and_hazards.md R153 case MIX, R155). -/
theorem iterate_mix {n : Nat} {s : State} (hbusy : s.rc ≠ 0#5) (hn : n ≤ s.rc.toNat) :
    State.mix^[n] s = { s with
      gen := roundN n s.gen, rc := s.rc - BitVec.ofNat 5 n, seeded := s.seeded || decide (n = s.rc.toNat) } := by
  induction n with
  | zero =>
    have hnotLast : 0 ≠ s.rc.toNat := by bv_omega
    simp [hnotLast]
  | succ n ih =>
    have hcount : s.rc - BitVec.ofNat 5 n - 1#5 = s.rc - BitVec.ofNat 5 (n + 1) := by bv_omega
    have hlast : s.rc - BitVec.ofNat 5 n = 1#5 ↔ n + 1 = s.rc.toNat := by bv_omega
    have hnotLast : n ≠ s.rc.toNat := by omega
    rw [Function.iterate_succ_apply', ih (by omega), State.mix, roundN_succ]
    by_cases h : n + 1 = s.rc.toNat <;> simp [hcount, hlast, hnotLast, h]

/-- LOAD and the twenty discard rounds make the state INIT leaves at the command level, where `rc` is 0
(42_init.md R101). -/
theorem iterate_mix_load (seed : Word) {s : State} (hrc : s.rc = 0#5) :
    State.mix^[initRounds] (s.load seed) = s.seedWith seed := by
  have hload : (s.load seed).rc.toNat = initRounds := rfl
  rw [iterate_mix (by simp [initRounds]) hload.ge, State.seedWith, seededState_eq]
  simp [State.load, initRounds, hrc]

/-! ### What commands can tell of a state -/

/-- Two states with the same words and flags. They may differ in the fields that no command reads. -/
def SameWordsAndFlags (s t : State) : Prop := s.gen = t.gen ∧ s.seeded = t.seeded ∧ s.ov = t.ov

/-- INIT makes any two states alike (42_init.md R104). -/
theorem sameWordsAndFlags_seedWith (seed : Word) (s t : State) :
    SameWordsAndFlags (s.seedWith seed) (t.seedWith seed) := by
  simp [SameWordsAndFlags]

theorem SameWordsAndFlags.advance {s t : State} (h : SameWordsAndFlags s t) :
    SameWordsAndFlags s.advance t.advance := by
  obtain ⟨hgen, hseeded, -⟩ := h
  exact ⟨congrArg genRound hgen, hseeded, rfl⟩

/-- Scripts return the same words from two such states, and leave two such states. -/
theorem SameWordsAndFlags.runScript {s t : State} (h : SameWordsAndFlags s t) (is : List Instr) :
    ∃ ws s' t', runScript is s = .next (ws, s') ∧ runScript is t = .next (ws, t') ∧ SameWordsAndFlags s' t' := by
  induction is generalizing s t with
  | nil => exact ⟨[], s, t, rfl, rfl, h⟩
  | cons i is ih =>
    cases i with
    | next =>
      obtain ⟨ws, s', t', hs, ht, h'⟩ := ih h.advance
      obtain ⟨hgen, -, -⟩ := h
      refine ⟨_, s', t', runScript_next is s s' ws hs, ?_, h'⟩
      rw [hgen]
      exact runScript_next is t t' ws ht
    | init seed =>
      obtain ⟨ws, s', t', hs, ht, h'⟩ := ih (sameWordsAndFlags_seedWith seed s t)
      exact ⟨ws, s', t', runScript_init seed is s s' ws hs, runScript_init seed is t t' ws ht, h'⟩

/-! ### Scripts that end in INIT -/

/-- No command fails (60_exceptions.md R120). -/
theorem exists_exec (i : Instr) (s : State) : ∃ t, exec i s = .next t := by
  obtain ⟨-, he⟩ | ⟨seed, -, he⟩ := exec_cases i s
  · exact ⟨_, he⟩
  · exact ⟨_, he⟩

/-- Every script runs to its end (60_exceptions.md R120). -/
theorem exists_runScript (is : List Instr) (s : State) : ∃ ws t, runScript is s = .next (ws, t) := by
  induction is generalizing s with
  | nil => exact ⟨[], s, rfl⟩
  | cons i is ih =>
    obtain ⟨s', he⟩ := exists_exec i s
    obtain ⟨ws, t, hr⟩ := ih s'
    exact ⟨_, t, runScript_cons he hr⟩

/-- A script in two parts: the second goes on from the state that the first leaves. -/
theorem runScript_append {is js : List Instr} {s t u : State} {ws vs : List Word}
    (his : runScript is s = .next (ws, t)) (hjs : runScript js t = .next (vs, u)) :
    runScript (is ++ js) s = .next (ws ++ vs, u) := by
  induction is generalizing s ws with
  | nil =>
    obtain ⟨rfl, rfl⟩ : [] = ws ∧ s = t := by simpa [runScript] using his
    exact hjs
  | cons i is ih =>
    obtain ⟨s', he⟩ := exists_exec i s
    obtain ⟨ws', t', hr⟩ := exists_runScript is s'
    obtain ⟨rfl, rfl⟩ : (offered s').toList ++ ws' = ws ∧ t' = t := by
      simpa [runScript_cons he hr] using his
    rw [List.cons_append, List.append_assoc]
    exact runScript_cons he (ih hr)

theorem runScript_singleton_init (seed : Word) (s : State) :
    runScript [.init seed] s = .next ([], s.seedWith seed) :=
  runScript_init seed [] s _ [] rfl

end Sys2Proof.Machine
end

section
/-! The statements of the family 42_init.md. -/

namespace Sys2Proof.Proofs

open Sys2Proof.Machine

/-- Settles O24: a discard round differs from NEXT only in delivering no word, and twenty of them end LOAD. -/
theorem initIsLoadThenTwentyMix : Obligations.InitIsLoadThenTwentyMix := by
  refine fun seed s => ⟨State.load_gen seed s, fun t => ?_, fun hrc => ?_⟩
  · exact ⟨State.mix_gen t, (State.mix_gen t).trans (State.advance_gen t).symm, State.advance_ov t, State.mix_ov t⟩
  · have hmix : State.mix^[20] (s.load seed) = s.seedWith seed := iterate_mix_load seed hrc
    rw [exec_init, hmix]

/-- Settles O25: after INIT the two states have the same words and flags, and later commands keep them so. -/
theorem sameSeedSameStream : Obligations.SameSeedSameStream := by
  intro s₁ s₂ seed is
  obtain ⟨ws, t₁, t₂, h₁, h₂, hgen, hseeded, hov⟩ := (sameWordsAndFlags_seedWith seed s₁ s₂).runScript is
  exact ⟨ws, t₁, t₂, runScript_init seed is s₁ t₁ ws h₁, runScript_init seed is s₂ t₂ ws h₂, hgen, hseeded, hov⟩

/-- Settles O26: the script runs to some state, and INIT overwrites what that state holds. -/
theorem initErasesThePast : Obligations.InitErasesThePast := by
  refine ⟨fun is seed s => ?_, fun seed s => ?_⟩
  · obtain ⟨ws, t, his⟩ := exists_runScript is s
    have hinit := runScript_append his (runScript_singleton_init seed t)
    rw [List.append_nil] at hinit
    exact ⟨ws, t, t.seedWith seed, his, hinit, State.seedWith_gen seed t, State.seedWith_seeded seed t,
      State.seedWith_ov seed t⟩
  · have hsecond := runScript_singleton_init seed (s.seedWith seed)
    rw [seedWith_seedWith] at hsecond
    rw [runScript_singleton_init]
    exact runScript_init seed [.init seed] s _ [] hsecond

/-- Settles O23: INIT is one update of the state, whose words are those of R100. -/
theorem initSeedsTheEngine : Obligations.InitSeedsTheEngine := by
  refine ⟨decode_packCommand_init, fun seed s => ?_, fun s => ?_⟩
  · rw [exec_init, State.seedWith, seededState_eq_roundN_twenty]
  · have hword : offered (s.seedWith 0#32).advance = some 0x1A9B6C07#32 := by
      rw [offered_advance, State.seedWith_gen, genRound_seededState_zero_d]
    exact ⟨s.seedWith 0#32, (s.seedWith 0#32).advance, exec_init 0#32 s,
      (State.seedWith_gen 0#32 s).trans seededState_zero, State.seedWith_seeded 0#32 s, State.seedWith_ov 0#32 s,
      exec_next _, hword⟩

/-- Settles O28: INIT clears `ov`, and the first NEXT performs one more round than INIT did. -/
theorem initDeliversNoWord : Obligations.InitDeliversNoWord := by
  intro seed s
  have hword : offered (s.seedWith seed).advance = some (roundN 21 ⟨0xF1EA5EED#32, seed, seed, seed⟩).d := by
    rw [offered_advance, State.seedWith_gen, genRound_seededState]
  exact ⟨s.seedWith seed, (s.seedWith seed).advance, exec_init seed s, offered_seedWith seed s,
    fun rst obs => (outputs_outValid rst obs _).trans (State.seedWith_ov seed s), exec_next _, hword⟩

end Sys2Proof.Proofs
end

section
/-! The statements of the family 60_exceptions.md. -/

namespace Sys2Proof.Proofs

open Sys2Proof.Machine

/-- No step stops: it performs a command, which never fails, or a clock edge (60_exceptions.md R120). -/
theorem goesOn (s : State) : GoesOn s := by
  obtain ⟨w, ws, -, -, hcommand⟩ | ⟨_, -, -, hedge⟩ | ⟨_, _, -, hedge⟩ | ⟨-, hedge⟩ := step_cases s
  · obtain ⟨t, ht⟩ := exists_exec (decode w) (s.withHost (.script ws))
    exact ⟨t, hcommand.trans ht⟩
  · exact ⟨_, hedge⟩
  · exact ⟨_, hedge⟩
  · exact ⟨_, hedge⟩

/-- Settles O30: both commands are updates of the state, so neither a step nor a script can stop on one. -/
theorem nothingEverFails : Obligations.NothingEverFails :=
  ⟨exists_exec, goesOn, exists_runScript⟩

end Sys2Proof.Proofs
end

section
/-! The facts about single edges, steps at the cycle level and runs of edges that the statements of
70_reset_and_hazards.md need. -/

namespace Sys2Proof.Machine

/-! ### The handshake -/

theorem accept_iff (p : PortInputs) (s : State) : accept p s = true ↔ p.cmdValid = true ∧ cmdReady p.rst s = true := by
  rw [accept, Bool.and_eq_true]

theorem transferred_of_accept {p : PortInputs} {s : State} (h : accept p s = true) :
    transferred p s = some (decode (packCommand p.cmdOp p.cmdSeed)) := if_pos h

theorem transferred_of_not_accept {p : PortInputs} {s : State} (h : accept p s = false) : transferred p s = none :=
  if_neg (by simp [h])

/-- A command is transferred at every edge at which valid meets ready (70_reset_and_hazards.md R149, R152). -/
theorem transferred_isSome (p : PortInputs) (s : State) : (transferred p s).isSome = accept p s := by
  cases h : accept p s with
  | false => rw [transferred_of_not_accept h, Option.isSome_none]
  | true => rw [transferred_of_accept h, Option.isSome_some]

theorem transferred_init {p : PortInputs} {s : State} (hrc : s.rc = 0#5) (hrst : p.rst = false)
    (hv : p.cmdValid = true) (hop : p.cmdOp = opInit) : transferred p s = some (.init p.cmdSeed) :=
  (transferred_eq_some p s _).2 ⟨hv, hrc, hrst, by rw [hop, decode_packCommand_init]⟩

theorem transferred_next {p : PortInputs} {s : State} (hrc : s.rc = 0#5) (hrst : p.rst = false)
    (hv : p.cmdValid = true) (hop : p.cmdOp = opNext) : transferred p s = some .next :=
  (transferred_eq_some p s _).2 ⟨hv, hrc, hrst, by rw [hop, decode_packCommand_next]⟩

/-- An idle engine takes the command word that its host presents. -/
theorem transferred_presentPorts (cw : CommandWord) {s : State} (hrc : s.rc = 0#5) :
    transferred (presentPorts cw) s = some (decode cw) :=
  (transferred_eq_some _ s _).2 ⟨rfl, hrc, rfl, congrArg decode (packCommand_fields cw)⟩

theorem transferred_of_busy (p : PortInputs) {s : State} (hrc : s.rc ≠ 0#5) : transferred p s = none :=
  (transferred_eq_none p s).2 fun ⟨_, hidle, _⟩ => hrc hidle

theorem transferred_of_rst {p : PortInputs} (s : State) (hrst : p.rst = true) : transferred p s = none :=
  (transferred_eq_none p s).2 fun ⟨_, _, hlow⟩ => by simp [hrst] at hlow

theorem transferred_of_not_valid {p : PortInputs} (s : State) (hv : p.cmdValid = false) : transferred p s = none :=
  (transferred_eq_none p s).2 fun ⟨hvalid, _⟩ => by simp [hv] at hvalid

/-! ### What an edge does, case by case -/

/-- The discard rounds have priority over the command port (60_exceptions.md R124). -/
theorem clockEdge_of_busy {p : PortInputs} {s : State} (hrst : p.rst = false) (hrc : s.rc ≠ 0#5) :
    clockEdge p s = s.mix := by
  simp [clockEdge, edgeCase, performCase, hrst, (busy_iff s).2 hrc]

theorem clockEdge_of_init {p : PortInputs} {s : State} {seed : Word} (ht : transferred p s = some (.init seed)) :
    clockEdge p s = s.load seed := by
  obtain ⟨-, hrc, hrst, -⟩ := (transferred_eq_some p s _).1 ht
  simp [clockEdge, edgeCase, performCase, hrst, (busy_eq_false s).2 hrc, ht]

/-- The case STEP is that of an accepted NEXT. -/
theorem edgeCase_eq_step_iff (p : PortInputs) (s : State) : edgeCase p s = .step ↔ transferred p s = some .next := by
  rw [edgeCase]
  split
  · next hrst => simp [transferred_of_rst s hrst]
  split
  · next hbusy => simp [transferred_of_busy p ((busy_iff s).1 hbusy)]
  split
  · next ht => simp [ht]
  · next ht => simp [ht]
  · next ht => simp [ht]

theorem clockEdge_of_next {p : PortInputs} {s : State} (ht : transferred p s = some .next) :
    clockEdge p s = s.advance := by
  rw [clockEdge, (edgeCase_eq_step_iff p s).2 ht, performCase]

/-- An idle edge with no command changes nothing (70_reset_and_hazards.md R156). -/
theorem clockEdge_of_not_valid {p : PortInputs} {s : State} (hrc : s.rc = 0#5) (hrst : p.rst = false)
    (hv : p.cmdValid = false) : clockEdge p s = s :=
  clockEdge_eq_self hrc hrst (transferred_of_not_valid s hv)

/-- `seeded` rises at the last discard round alone (70_reset_and_hazards.md R155). -/
theorem clockEdge_raises_seeded_iff (p : PortInputs) {s : State} (hs : s.seeded = false) :
    (clockEdge p s).seeded = true ↔ p.rst = false ∧ s.rc = 1#5 := by
  obtain ⟨hrst, he⟩ | ⟨hrst, -, he⟩ | ⟨-, hrc, -, seed, -, he⟩ | ⟨-, hrc, -, -, he⟩ | ⟨-, hrc, -, he⟩ :=
    clockEdge_cases p s
  · simp [he, hrst]
  · simp [he, hrst, hs]
  · simp [he, hrc]
  · simp [he, hrc, hs]
  · simp [he, hrc, hs]

/-! ### Steps that perform a clock edge -/

theorem step_of_edges {s : State} {p : PortInputs} {ps : List PortInputs} (hh : s.host = .edges (p :: ps)) :
    step s = .next (clockEdge p (s.withHost (.edges ps))) := by
  simp [step, fetch, hh]

/-- With nothing left to present the host idles (log 2). -/
theorem step_of_nothing_left {s : State} (hh : s.host = .script [] ∨ s.host = .edges []) :
    step s = .next (clockEdge idlePorts s) := by
  obtain hh | hh := hh
  · simp [step, fetch, hh]
  · simp [step, fetch, hh]

/-- A command that waits for a busy engine stays in the list (log 6). -/
theorem step_of_busy_script {s : State} {ws : List CommandWord} (hh : s.host = .script ws) (hrc : s.rc ≠ 0#5) :
    step s = .next (clockEdge idlePorts s) := by
  cases ws with
  | nil => exact step_of_nothing_left (.inl hh)
  | cons w ws => simp [step, fetch, hh, (busy_iff s).2 hrc]

/-- The steps of an engine whose host holds edges are those edges. The state `s` of the run of edges may hold anything
in `host`, since edges do not touch it. -/
theorem core_run_edges (ps : List PortInputs) (s : State) :
    Host.Core.run core ps.length (s.withHost (.edges ps)) = .next ((runEdges ps s).withHost (.edges [])) := by
  induction ps generalizing s with
  | nil => rfl
  | cons p ps ih =>
    have hstep : step (s.withHost (.edges (p :: ps))) = .next ((clockEdge p s).withHost (.edges ps)) := by
      rw [step_of_edges (State.withHost_host _ s), withHost_withHost, withHost_clockEdge]
    exact (core_run_succ hstep ps.length).trans (ih (clockEdge p s))

/-! ### Runs of edges, first edge first -/

@[simp] theorem runEdges_nil (s : State) : runEdges [] s = s := rfl

@[simp] theorem runEdges_cons (p : PortInputs) (ps : List PortInputs) (s : State) :
    runEdges (p :: ps) s = runEdges ps (clockEdge p s) := rfl

@[simp] theorem acceptedCommands_nil (s : State) : acceptedCommands [] s = [] := rfl

@[simp] theorem acceptedCommands_cons (p : PortInputs) (ps : List PortInputs) (s : State) :
    acceptedCommands (p :: ps) s = (transferred p s).toList ++ acceptedCommands ps (clockEdge p s) := rfl

@[simp] theorem edgeWords_nil (s : State) : edgeWords [] s = [] := rfl

theorem edgeWords_cons_of_next {p : PortInputs} {s : State} (ps : List PortInputs)
    (ht : transferred p s = some .next) : edgeWords (p :: ps) s = (genRound s.gen).d :: edgeWords ps s.advance := by
  rw [edgeWords, if_pos ((edgeCase_eq_step_iff p s).2 ht), clockEdge_of_next ht, offered_advance]
  rfl

theorem edgeWords_cons_of_ne_next {p : PortInputs} {s : State} (ps : List PortInputs)
    (ht : transferred p s ≠ some .next) : edgeWords (p :: ps) s = edgeWords ps (clockEdge p s) := by
  rw [edgeWords, if_neg (mt (edgeCase_eq_step_iff p s).1 ht), List.nil_append]

theorem runEdges_append (ps qs : List PortInputs) (s : State) :
    runEdges (ps ++ qs) s = runEdges qs (runEdges ps s) := by
  induction ps generalizing s with
  | nil => rfl
  | cons p ps ih => exact ih (clockEdge p s)

theorem acceptedCommands_append (ps qs : List PortInputs) (s : State) :
    acceptedCommands (ps ++ qs) s = acceptedCommands ps s ++ acceptedCommands qs (runEdges ps s) := by
  induction ps generalizing s with
  | nil => rfl
  | cons p ps ih => simp [ih]

theorem rstLow_cons {p : PortInputs} {ps : List PortInputs} : RstLow (p :: ps) ↔ p.rst = false ∧ RstLow ps :=
  List.forall_mem_cons

theorem rstLow_replicate (n : Nat) {p : PortInputs} (hrst : p.rst = false) : RstLow (List.replicate n p) :=
  fun _ hq => (congrArg PortInputs.rst (List.eq_of_mem_replicate hq)).trans hrst

/-- Idle edges, however many (70_reset_and_hazards.md R156). -/
theorem runEdges_of_idle {ps : List PortInputs} {s : State} (hrc : s.rc = 0#5)
    (hps : ∀ p ∈ ps, p.rst = false ∧ p.cmdValid = false) : runEdges ps s = s := by
  induction ps with
  | nil => rfl
  | cons p ps ih =>
    obtain ⟨⟨hrst, hv⟩, hps⟩ := List.forall_mem_cons.1 hps
    rw [runEdges_cons, clockEdge_of_not_valid hrc hrst hv, ih hps]

/-! ### Runs of edges that meet a busy engine -/

theorem mix_rc_toNat {s : State} (hrc : s.rc ≠ 0#5) : s.mix.rc.toNat + 1 = s.rc.toNat := by
  rw [State.mix_rc]
  bv_omega

/-- Discard rounds count `rc` down (70_reset_and_hazards.md R155). -/
theorem iterate_mix_rc_toNat {n : Nat} {s : State} (hn : n ≤ s.rc.toNat) :
    (State.mix^[n] s).rc.toNat = s.rc.toNat - n := by
  obtain rfl | hpos := Nat.eq_zero_or_pos n
  · rfl
  · rw [iterate_mix (by bv_omega) hn]
    bv_omega

/-- While the engine is busy every edge is a discard round, whatever the host presents, and no command is accepted
(70_reset_and_hazards.md R148). -/
theorem runEdges_of_busy {ps : List PortInputs} {s : State} (hlow : RstLow ps) (hle : ps.length ≤ s.rc.toNat) :
    runEdges ps s = State.mix^[ps.length] s ∧ acceptedCommands ps s = [] := by
  induction ps generalizing s with
  | nil => exact ⟨rfl, rfl⟩
  | cons p ps ih =>
    obtain ⟨hrst, hlow⟩ := rstLow_cons.1 hlow
    rw [List.length_cons] at hle
    have hbusy : s.rc ≠ 0#5 := by bv_omega
    have hcount := mix_rc_toNat hbusy
    obtain ⟨hrun, hnone⟩ := ih (s := s.mix) hlow (by omega)
    rw [runEdges_cons, acceptedCommands_cons, clockEdge_of_busy hrst hbusy, transferred_of_busy p hbusy, hrun, hnone]
    exact ⟨rfl, rfl⟩

/-- The edges after the acceptance of an INIT, up to the twentieth discard round (70_reset_and_hazards.md R157). -/
theorem runEdges_load {ps : List PortInputs} (seed : Word) (s : State) (hlow : RstLow ps)
    (hle : ps.length ≤ initRounds) :
    runEdges ps (s.load seed) = { s with
      gen := roundN ps.length (loadState seed), rc := BitVec.ofNat 5 initRounds - BitVec.ofNat 5 ps.length,
      seeded := decide (ps.length = initRounds), ov := false } := by
  have hload : (s.load seed).rc.toNat = initRounds := rfl
  obtain ⟨hrun, -⟩ := runEdges_of_busy hlow (hle.trans hload.ge)
  rw [hrun, iterate_mix (by simp [initRounds]) (hle.trans hload.ge), hload]
  simp [State.load]

/-! ### The refinement (70_reset_and_hazards.md R160) -/

/-- The state that the discard rounds still to come will leave: what a state of the cycle level stands for at the
command level, where INIT is one step. -/
def State.completed (s : State) : State := State.mix^[s.rc.toNat] s

theorem completed_of_idle {s : State} (hrc : s.rc = 0#5) : s.completed = s := by
  rw [State.completed, hrc]
  rfl

theorem completed_rc (s : State) : s.completed.rc = 0#5 := by
  apply BitVec.eq_of_toNat_eq
  rw [State.completed, iterate_mix_rc_toNat le_rfl, Nat.sub_self]
  rfl

/-- The host reaches that state by waiting. -/
theorem runEdges_eq_completed {ps : List PortInputs} {s : State} (hlow : RstLow ps) (hlen : ps.length = s.rc.toNat) :
    runEdges ps s = s.completed := by
  obtain ⟨hrun, -⟩ := runEdges_of_busy hlow hlen.le
  rw [hrun, hlen, State.completed]

theorem completed_mix {s : State} (hrc : s.rc ≠ 0#5) : s.mix.completed = s.completed := by
  rw [State.completed, State.completed, ← mix_rc_toNat hrc, Function.iterate_succ_apply]

/-- LOAD stands for the whole INIT. -/
theorem completed_load (seed : Word) {s : State} (hrc : s.rc = 0#5) : (s.load seed).completed = s.seedWith seed :=
  iterate_mix_load seed hrc

/-- A non-reset edge that accepts no command is not seen at the command level: it is a discard round or HOLD. -/
theorem completed_clockEdge_of_none {p : PortInputs} {s : State} (hrst : p.rst = false) (ht : transferred p s = none) :
    (clockEdge p s).completed = s.completed := by
  by_cases hrc : s.rc = 0#5
  · rw [clockEdge_eq_self hrc hrst ht]
  · rw [clockEdge_of_busy hrst hrc, completed_mix hrc]

/-- The accepted commands of any run of edges without a reset, performed at the command level, return the words of the
run and lead from the state that its first state stands for to the one that its last state stands for. -/
theorem runScript_acceptedCommands {ps : List PortInputs} (hlow : RstLow ps) (s : State) :
    runScript (acceptedCommands ps s) s.completed = .next (edgeWords ps s, (runEdges ps s).completed) := by
  induction ps generalizing s with
  | nil => rfl
  | cons p ps ih =>
    obtain ⟨hrst, hlow⟩ := rstLow_cons.1 hlow
    have hrest := ih hlow (clockEdge p s)
    rw [acceptedCommands_cons, runEdges_cons]
    cases ht : transferred p s with
    | none =>
      rw [completed_clockEdge_of_none hrst ht] at hrest
      rw [edgeWords_cons_of_ne_next ps (by simp [ht])]
      exact hrest
    | some i =>
      obtain ⟨-, hrc, -, -⟩ := (transferred_eq_some p s i).1 ht
      rw [completed_of_idle hrc]
      cases i with
      | next =>
        have hidle : s.advance.rc = 0#5 := hrc
        rw [clockEdge_of_next ht] at hrest ⊢
        rw [completed_of_idle hidle] at hrest
        rw [edgeWords_cons_of_next ps ht]
        exact runScript_next _ s _ _ hrest
      | init seed =>
        rw [edgeWords_cons_of_ne_next ps (by simp [ht])]
        rw [clockEdge_of_init ht] at hrest ⊢
        rw [completed_load seed hrc] at hrest
        exact runScript_init seed _ s _ _ hrest

/-- Between two idle states the cycle level refines the command level. -/
theorem runScript_acceptedCommands_of_idle {ps : List PortInputs} {s : State} (hrc : s.rc = 0#5) (hlow : RstLow ps)
    (hend : (runEdges ps s).rc = 0#5) :
    runScript (acceptedCommands ps s) s = .next (edgeWords ps s, runEdges ps s) := by
  have hrun := runScript_acceptedCommands hlow s
  rwa [completed_of_idle hrc, completed_of_idle hend] at hrun

theorem observeEdges_of_idle {ps : List PortInputs} {s : State} (hlow : RstLow ps) (hend : (runEdges ps s).rc = 0#5) :
    observeEdges ps s = some (observation (edgeWords ps s) (runEdges ps s)) :=
  (observeEdges_eq_some ps s _).2 ⟨hlow, hend, rfl⟩

theorem observeScript_of_runScript {is : List Instr} {s t : State} {ws : List Word}
    (h : runScript is s = .next (ws, t)) : observeScript is s = some (observation ws t) := by
  rw [observeScript, h]

/-- A run that begins and ends idle has the observation of the script it accepted (70_reset_and_hazards.md R163). -/
theorem observeEdges_eq_observeScript {ps : List PortInputs} {s : State} (hrc : s.rc = 0#5) (hlow : RstLow ps)
    (hend : (runEdges ps s).rc = 0#5) : observeEdges ps s = observeScript (acceptedCommands ps s) s := by
  rw [observeEdges_of_idle hlow hend, observeScript_of_runScript (runScript_acceptedCommands_of_idle hrc hlow hend)]

/-! ### A NEXT held over several edges -/

/-- Every one of the edges accepts a NEXT, since none makes the engine busy (70_reset_and_hazards.md R149). -/
theorem runEdges_held_next (n : Nat) {cw : CommandWord} (hcw : decode cw = .next) {s : State} (hrc : s.rc = 0#5) :
    acceptedCommands (List.replicate n (presentPorts cw)) s = List.replicate n .next ∧
    runEdges (List.replicate n (presentPorts cw)) s = State.advance^[n] s := by
  induction n generalizing s with
  | zero => exact ⟨rfl, rfl⟩
  | succ n ih =>
    have ht : transferred (presentPorts cw) s = some .next := by rw [transferred_presentPorts cw hrc, hcw]
    obtain ⟨haccepted, hrun⟩ := ih (s := s.advance) hrc
    rw [List.replicate_succ, acceptedCommands_cons, runEdges_cons, ht, clockEdge_of_next ht, haccepted, hrun]
    exact ⟨rfl, rfl⟩

/-- The words are those of the accepted NEXT commands at the command level. -/
theorem edgeWords_held_next (n : Nat) {cw : CommandWord} (hcw : decode cw = .next) {s : State} (hrc : s.rc = 0#5) :
    edgeWords (List.replicate n (presentPorts cw)) s = nextWords n s.gen := by
  obtain ⟨haccepted, hrun⟩ := runEdges_held_next n hcw hrc
  have hend : (runEdges (List.replicate n (presentPorts cw)) s).rc = 0#5 := by rw [hrun, iterate_advance, hrc]
  have hscript := runScript_acceptedCommands_of_idle hrc (rstLow_replicate n rfl) hend
  rw [haccepted, runScript_replicate_next] at hscript
  obtain ⟨hwords, -⟩ := Prod.mk.inj (Host.Outcome.next.inj hscript)
  exact hwords.symm

end Sys2Proof.Machine
end

section
/-! The statements of the family 70_reset_and_hazards.md. -/

namespace Sys2Proof.Proofs

open Sys2Proof.Machine

/-- Settles O48: both ends are idle, so the states that they stand for are the states themselves. -/
theorem cycleLevelRefinesCommandLevel : Obligations.CycleLevelRefinesCommandLevel :=
  fun _ _ hrc hlow hend => runScript_acceptedCommands_of_idle hrc hlow hend

/-- Settles O49: both observations are that of the one script. -/
theorem waitingIsNotObserved : Obligations.WaitingIsNotObserved := by
  intro ps qs s hrc hps hqs hpsEnd hqsEnd hsame
  have hscript := observeEdges_eq_observeScript hrc hps hpsEnd
  refine ⟨?_, hscript, ?_⟩
  · rw [hscript, hsame, observeEdges_eq_observeScript hrc hqs hqsEnd]
  · rw [observeEdges_of_idle hps hpsEnd, Option.isSome_some]

/-- Settles O34: the state holds the edges already, so its steps are those of `core_run_edges`. -/
theorem edgesRunAsSteps : Obligations.EdgesRunAsSteps := by
  intro ps s hhost
  have hrun := core_run_edges ps s
  rwa [withHost_eq_self hhost] at hrun

/-- Settles O36, case by case: RESET, MIX, LOAD, STEP, HOLD. -/
theorem edgeTakesOneOfFiveCases : Obligations.EdgeTakesOneOfFiveCases := fun _ s =>
  ⟨fun hrst => ⟨drawAbcd s.draws, s.draws + 1, clockEdge_of_rst hrst⟩,
    fun hrst hrc => clockEdge_of_busy hrst hrc,
    fun hrst hrc hv hop => clockEdge_of_init (transferred_init hrc hrst hv hop),
    fun hrst hrc hv hop => clockEdge_of_next (transferred_next hrc hrst hv hop),
    fun hrst hrc hv => clockEdge_of_not_valid hrc hrst hv⟩

/-- Settles O40: the busy edges are discard rounds whatever the host presents, and the edge after them meets an idle
engine. -/
theorem commandsWaitWhileBusy : Obligations.CommandsWaitWhileBusy := by
  intro s cw hrc
  refine ⟨fun rst obs => ?_, fun p hrst => ⟨?_, transferred_of_busy p hrc⟩, ?_⟩
  · rw [outputs_cmdReady, ← Bool.not_eq_true, cmdReady_iff]
    exact fun ⟨hidle, _⟩ => hrc hidle
  · rw [clockEdge_of_busy hrst hrc, clockEdge_of_busy rfl hrc]
  · have hpresent : RstLow (List.replicate s.rc.toNat (presentPorts cw)) := rstLow_replicate _ rfl
    have hidle : RstLow (List.replicate s.rc.toNat idlePorts) := rstLow_replicate _ rfl
    obtain ⟨-, hnone⟩ := runEdges_of_busy hpresent List.length_replicate.le
    have hheld := runEdges_eq_completed hpresent List.length_replicate
    have hwait := runEdges_eq_completed hidle List.length_replicate
    rw [List.replicate_succ', acceptedCommands_append, runEdges_append, hnone, hheld, hwait, acceptedCommands_cons,
      transferred_presentPorts cw (completed_rc s)]
    exact ⟨rfl, rfl⟩

/-- Settles O41: acceptance is valid and ready, and a held NEXT finds the engine ready at every edge. -/
theorem heldNextIsManyCommands : Obligations.HeldNextIsManyCommands := by
  refine ⟨fun p s => ?_, fun n seed s hrc => ?_⟩
  · rw [transferred_isSome, accept_iff]
  · have hcw : decode (packCommand 0#1 seed) = .next := decode_packCommand_next seed
    obtain ⟨haccepted, hrun⟩ := runEdges_held_next n hcw hrc
    rw [hrun, iterate_advance]
    exact ⟨haccepted, edgeWords_held_next n hcw hrc, rfl, fun hn => offered_of_ov (by simp [hn])⟩

/-- Settles O42: what each case of an edge does to `seeded`, and what each command does. -/
theorem seededRisesOnlyAtCompletion : Obligations.SeededRisesOnlyAtCompletion := by
  refine ⟨fun p s hs => clockEdge_raises_seeded_iff p hs, fun p s hrst hrc => ?_, fun i s => ?_⟩
  · rw [clockEdge_of_busy hrst (by simp [hrc]), State.mix_rc, hrc]
    rfl
  · obtain ⟨rfl, he⟩ | ⟨seed, rfl, he⟩ := exec_cases i s
    · exact ⟨s.advance, he, fun hs => by simp [hs]⟩
    · exact ⟨s.seedWith seed, he, fun _ => by simp⟩

/-- Settles O44, by induction on the edges. -/
theorem idleEdgesChangeNothing : Obligations.IdleEdgesChangeNothing :=
  fun _ _ hrc hps => runEdges_of_idle hrc hps

/-- Settles O45: the accepting edge is LOAD, and the edges after it are discard rounds. -/
theorem initTimeline : Obligations.InitTimeline := by
  intro s p ps hrc hrst hv hop hlow hle
  have hlen : ps.length ≤ 20 := hle
  rw [clockEdge_of_init (transferred_init hrc hrst hv hop), runEdges_load p.cmdSeed s hlow hle]
  intro t
  have hcount : t.rc.toNat = 20 - ps.length := by
    show (20#5 - BitVec.ofNat 5 ps.length).toNat = 20 - ps.length
    bv_omega
  have hbusy : t.rc = 0#5 ↔ ps.length = 20 := by bv_omega
  refine ⟨hcount, ?_, ?_, rfl, rfl, rfl⟩
  · rw [Bool.eq_iff_iff, busy_iff, decide_eq_true_iff, ne_eq, hbusy]
    omega
  · rw [Bool.eq_iff_iff, cmdReady_iff, decide_eq_true_iff, hbusy]
    simp

/-- Settles O47: each edge counts `rc` down by one, and the invariant bounds `rc` after any edge. -/
theorem busyEndsAfterExactlyRcEdges : Obligations.BusyEndsAfterExactlyRcEdges := by
  refine ⟨fun s ps hlow hlen => ⟨?_, fun k hk => ?_⟩, fun s p hinv _ => ?_⟩
  · rw [runEdges_eq_completed hlow hlen]
    exact completed_rc s
  · have htake : (ps.take k).length = k := List.length_take_of_le (by omega)
    obtain ⟨hrun, -⟩ := runEdges_of_busy (fun _ hp => hlow _ (List.mem_of_mem_take hp)) (htake.trans_le hk.le)
    have hcount : (runEdges (ps.take k) s).rc.toNat = s.rc.toNat - k := by
      rw [hrun, htake, iterate_mix_rc_toNat hk.le]
    bv_omega
  · obtain ⟨hle, -⟩ := hinv.clockEdge p
    exact hle

/-- Settles O32: an edge of the list, a busy engine, or an idle edge. -/
theorem stepPerformsEdgesAndWaits : Obligations.StepPerformsEdgesAndWaits := by
  refine ⟨fun s p ps hhost => step_of_edges hhost, fun s ws hhost hrc => ?_, fun s hhost hrc => ?_,
    fun s hhost hrc => ?_⟩
  · rw [step_of_busy_script hhost hrc, clockEdge_of_busy rfl hrc]
  · rw [step_of_nothing_left hhost, clockEdge_of_not_valid hrc rfl rfl]
  · rw [step_of_nothing_left (.inr hhost), clockEdge_of_busy rfl hrc]

/-- Settles O35, port by port. -/
theorem outputsFollowTheState : Obligations.OutputsFollowTheState :=
  ⟨fun s rst obs => ⟨outputs_outValid rst obs s, rfl, busy_iff s, cmdReady_iff rst s,
      fun hov => outputs_outData_of_ov hov rst obs⟩,
    fun s s' obs hs hs' => by simp [outData, hs, hs']⟩

/-- Settles O37: the transferred command is the decoded one, and its opcode tells which. -/
theorem acceptanceIsValidAndReady : Obligations.AcceptanceIsValidAndReady := fun p s _ =>
  ⟨accept_iff p s, fun h => by rw [transferred_of_accept h, decode_packCommand]; rfl, transferred_of_not_accept⟩

/-- Settles O38: a reset edge leaves a launch state, whose ports R143 gives; each command leaves its own mark. -/
theorem resetFromAnyState : Obligations.ResetFromAnyState := by
  refine ⟨fun p s hrst => ?_, fun seed s => ?_⟩
  · have hreset : clockEdge p s = State.launch (drawAbcd s.draws) (s.draws + 1) s.host :=
      (clockEdge_of_rst hrst).trans (resetEdge_eq_launch s)
    obtain ⟨-, hlaunch⟩ := resetLeavesFreshAndIdle
    refine ⟨⟨_, _, hreset⟩, transferred_of_rst s hrst, fun obs => ⟨?_, ?_⟩⟩
    · rw [outputs_cmdReady, ← Bool.not_eq_true, cmdReady_iff]
      exact fun ⟨_, hlow⟩ => Bool.noConfusion hlow
    · obtain ⟨-, -, hready, hbusy, -⟩ := hlaunch (drawAbcd s.draws) (s.draws + 1) s.host obs
      rw [hreset]
      exact ⟨hready, hbusy, rfl, rfl⟩
  · exact ⟨s.seedWith seed, s.advance, exec_init seed s, State.seedWith_seeded seed s, exec_next s, State.advance_ov s⟩

/-- Settles O46: the accepting edge is one advance, which leaves the engine ready. -/
theorem nextTimeline : Obligations.NextTimeline := by
  intro s p hrc hrst hv hop
  have hidle : s.advance.rc = 0#5 := hrc
  rw [clockEdge_of_next (transferred_next hrc hrst hv hop)]
  refine ⟨State.advance_gen s, State.advance_ov s, fun obs => ?_, hidle, (busy_eq_false _).2 hidle,
    (cmdReady_iff false _).2 ⟨hidle, rfl⟩, fun cw => transferred_presentPorts cw hidle⟩
  obtain ⟨-, hdata⟩ := outputs_advance false obs s
  exact hdata

end Sys2Proof.Proofs
end

section
/-! The facts about the host's entry to the decoder and about the draws of the state words that the remaining statements
need. -/

namespace Sys2Proof

/-- A number stands for a command word exactly when it has 33 bits (20_memory.md R33). -/
theorem commandWord?_isSome_iff (v : Nat) : (commandWord? v).isSome = true ↔ v < 2 ^ 33 := by
  simp [commandWord?, commandWordOk]

/-- The decoder refuses no command word (30_encoding.md R56), so only `commandWord?` can refuse a number. -/
theorem decodeTableWord_eq_map (nbits w : Nat) :
    decodeTableWord nbits w = (commandWord? (w % 2 ^ nbits)).map decode := by
  rw [decodeTableWord, decodeRaw]
  cases commandWord? (w % 2 ^ nbits) with
  | none => rfl
  | some cw => rfl

end Sys2Proof

namespace Sys2Proof.Machine

/-- Only a reset edge draws (log 4). -/
theorem clockEdge_draws_of_rst_low {p : PortInputs} (s : State) (hrst : p.rst = false) :
    (clockEdge p s).draws = s.draws := by
  obtain ⟨hhigh, -⟩ | ⟨-, -, he⟩ | ⟨-, -, -, seed, -, he⟩ | ⟨-, -, -, -, he⟩ | ⟨-, -, -, he⟩ := clockEdge_cases p s
  · simp [hrst] at hhigh
  · rw [he, State.mix_draws]
  · rw [he, State.load_draws]
  · rw [he, State.advance_draws]
  · rw [he]

/-- No command draws (log 4). -/
theorem exec_keeps_draws (i : Instr) (s : State) : ∃ t, exec i s = .next t ∧ t.draws = s.draws := by
  obtain ⟨-, he⟩ | ⟨seed, -, he⟩ := exec_cases i s
  · exact ⟨s.advance, he, State.advance_draws s⟩
  · exact ⟨s.seedWith seed, he, State.seedWith_draws seed s⟩

end Sys2Proof.Machine
end

section
/-! The statements about the vectors of the decoder, its entry for the host, and the draws at reset. -/

namespace Sys2Proof.Proofs

open Sys2Proof.Machine

/-- Settles O5: each word of the table is its two fields packed, and the opcode picks the command. -/
theorem vectorWordsDecode : Obligations.VectorWordsDecode :=
  ⟨decode_packCommand_next 0x00000000#32, decode_packCommand_next 0xDEADBEEF#32,
    decode_packCommand_next 0xFFFFFFFF#32, decode_packCommand_next 0x00000001#32,
    decode_packCommand_init 0x00000000#32, decode_packCommand_init 0xFFFFFFFF#32,
    decode_packCommand_init 0xF1EA5EED#32, decode_packCommand_init 0x80000000#32⟩

/-- Settles O6: the entry answers when the number is a command word. -/
theorem tableWordsAreThirtyThreeBits : Obligations.TableWordsAreThirtyThreeBits := by
  intro nbits w
  rw [decodeTableWord_eq_map, Option.isSome_map, commandWord?_isSome_iff]

/-- Settles O39: the draw of a reset edge, the cases of any other edge, and the two commands. -/
theorem everyResetTakesAFreshDraw : Obligations.EveryResetTakesAFreshDraw :=
  ⟨fun _ s hrst => (clockEdge_of_rst hrst).trans (resetEdge_eq_launch s),
    fun _ s hrst => clockEdge_draws_of_rst_low s hrst, exec_keeps_draws⟩

end Sys2Proof.Proofs
end
